-- ==== Sys2Proof/Word.lean ====
section
/-! DEFINITION. The two word sizes of the machine (00_scope.md R8, 10_state.md R20).

Every register and memory value is unsigned; there is no signed quantity anywhere (R8), so no sign extension is defined. -/

namespace Sys2Proof

/-- A byte of memory, a V register, a timer, an 8-bit immediate. -/
abbrev Byte := BitVec 8

/-- A 16-bit quantity: an opcode, `I`, `PC`, a call-stack slot. -/
abbrev Word := BitVec 16

/-- `zext_16` of an 8-bit value (R8). -/
abbrev zext16 (b : Byte) : Word := b.setWidth 16

/-- `zext_16` of a 12-bit address field `nnn` (R8, 30_encoding.md R72). -/
abbrev zextAddr (nnn : BitVec 12) : Word := nnn.setWidth 16

end Sys2Proof
end

