-- ==== Sys2Proof/Syntax.lean ====
section
/-! DEFINITION. The 34 instructions of the opcode map (30_encoding.md R76), one constructor a row, in the table's order.

Register numbers `x`, `y` and the sprite height `n` are the plain numbers 0..15 (R72) and have the type `Fin 16`.
An immediate `kk` and an address `nnn` keep their bits.
The bits of an opcode that the decoder does not examine (R77: `y` of SHR and SHL, the low nibble of 5xy? and 9xy?) are kept
as arguments, so that every defined opcode is one term of `Instr` and none is lost (assumption 5). -/

namespace Sys2Proof

/-- A decoded instruction. -/
inductive Instr where
  /-- `00E0` CLS, clear the display (44_display.md R141). -/
  | cls
  /-- `00EE` RET, return from subroutine (42_control_flow.md R125). -/
  | ret
  /-- `1nnn` JP addr (R122). -/
  | jpAddr (nnn : BitVec 12)
  /-- `2nnn` CALL addr (R124). -/
  | callAddr (nnn : BitVec 12)
  /-- `3xkk` SE Vx, byte (R126). -/
  | seByte (x : Fin 16) (kk : Byte)
  /-- `4xkk` SNE Vx, byte (R127). -/
  | sneByte (x : Fin 16) (kk : Byte)
  /-- `5xy?` SE Vx, Vy (R128); `low` is the nibble the decoder ignores (R75). -/
  | seReg (x y : Fin 16) (low : BitVec 4)
  /-- `6xkk` LD Vx, byte (41_arithmetic_logic.md R101). -/
  | ldByte (x : Fin 16) (kk : Byte)
  /-- `7xkk` ADD Vx, byte (R102). -/
  | addByte (x : Fin 16) (kk : Byte)
  /-- `8xy0` LD Vx, Vy (R103). -/
  | ldReg (x y : Fin 16)
  /-- `8xy1` OR Vx, Vy (R104). -/
  | orReg (x y : Fin 16)
  /-- `8xy2` AND Vx, Vy (R105). -/
  | andReg (x y : Fin 16)
  /-- `8xy3` XOR Vx, Vy (R111). -/
  | xorReg (x y : Fin 16)
  /-- `8xy4` ADD Vx, Vy (R106). -/
  | addReg (x y : Fin 16)
  /-- `8xy5` SUB Vx, Vy (R107). -/
  | subReg (x y : Fin 16)
  /-- `8xy6` SHR Vx (R109); `y` is encoded and not used (R77). -/
  | shr (x y : Fin 16)
  /-- `8xy7` SUBN Vx, Vy (R108). -/
  | subn (x y : Fin 16)
  /-- `8xyE` SHL Vx (R110); `y` is encoded and not used (R77). -/
  | shl (x y : Fin 16)
  /-- `9xy?` SNE Vx, Vy (42_control_flow.md R129); `low` is the nibble the decoder ignores (R75). -/
  | sneReg (x y : Fin 16) (low : BitVec 4)
  /-- `Annn` LD I, addr (46_memory_index.md R165). -/
  | ldI (nnn : BitVec 12)
  /-- `Bnnn` JP V0, addr (42_control_flow.md R123). -/
  | jpV0 (nnn : BitVec 12)
  /-- `Cxkk` RND Vx, byte (43_random.md R136). -/
  | rnd (x : Fin 16) (kk : Byte)
  /-- `Dxyn` DRW Vx, Vy, n (44_display.md R142). -/
  | drw (x y n : Fin 16)
  /-- `Ex9E` SKP Vx (45_timers_input.md R153). -/
  | skp (x : Fin 16)
  /-- `ExA1` SKNP Vx (R154). -/
  | sknp (x : Fin 16)
  /-- `Fx07` LD Vx, DT (R150). -/
  | ldVxDT (x : Fin 16)
  /-- `Fx0A` LD Vx, K (R155). -/
  | ldVxK (x : Fin 16)
  /-- `Fx15` LD DT, Vx (R151). -/
  | ldDTVx (x : Fin 16)
  /-- `Fx18` LD ST, Vx (R152). -/
  | ldSTVx (x : Fin 16)
  /-- `Fx1E` ADD I, Vx (46_memory_index.md R166). -/
  | addI (x : Fin 16)
  /-- `Fx29` LD F, Vx (R167). -/
  | ldF (x : Fin 16)
  /-- `Fx33` LD B, Vx (R168). -/
  | ldB (x : Fin 16)
  /-- `Fx55` LD [I], Vx (R169). -/
  | storeRegs (x : Fin 16)
  /-- `Fx65` LD Vx, [I] (R170). -/
  | loadRegs (x : Fin 16)
  deriving DecidableEq, Repr

end Sys2Proof
end

