-- ==== Sys2Proof/WellFormed.lean ====
section
/-! DEFINITION. Which instructions are in canonical form (30_encoding.md R77).

That every operand is in its range needs no check: the types of `Instr`'s arguments hold no other value.
What is left to check is R77's canonical form: the low nibble of 5xy? and of 9xy? is 0.
92_eei_decisions.md D13 names the well-formedness check as the place for it.
The decoder and the machine accept the other forms as well (R75), so nothing but an assembler or a claim asks for it. -/

namespace Sys2Proof

/-- R77: the encoding of the instruction is canonical.
For the shifts every `y` is equally canonical. -/
def Instr.wellFormed : Instr → Bool
  | .seReg _ _ low => low == 0
  | .sneReg _ _ low => low == 0
  | .cls => true
  | .ret => true
  | .jpAddr _ => true
  | .callAddr _ => true
  | .seByte _ _ => true
  | .sneByte _ _ => true
  | .ldByte _ _ => true
  | .addByte _ _ => true
  | .ldReg _ _ => true
  | .orReg _ _ => true
  | .andReg _ _ => true
  | .xorReg _ _ => true
  | .addReg _ _ => true
  | .subReg _ _ => true
  | .shr _ _ => true
  | .subn _ _ => true
  | .shl _ _ => true
  | .ldI _ => true
  | .jpV0 _ => true
  | .rnd _ _ => true
  | .drw _ _ _ => true
  | .skp _ => true
  | .sknp _ => true
  | .ldVxDT _ => true
  | .ldVxK _ => true
  | .ldDTVx _ => true
  | .ldSTVx _ => true
  | .addI _ => true
  | .ldF _ => true
  | .ldB _ => true
  | .storeRegs _ => true
  | .loadRegs _ => true

end Sys2Proof
end

