-- ==== Sys2Proof/Decode.lean ====
section
/-! DEFINITION. From opcode words to instructions and back (30_encoding.md).

Decoding is two-level and total (R73): the top nibble selects a group, and groups 0, 8, E and F dispatch further (R74).
The encoder is written from the formats of R71, not from the decoder.
The opcode map of R76 stands as a list of masks and matches, so that the three can be held against one another. -/

namespace Sys2Proof

/-! ## Fields (00_scope.md R10, 30_encoding.md R72) -/

/-- `g = op[15:12]`. -/
def fieldG (op : Word) : BitVec 4 := op.extractLsb' 12 4

/-- `x = op[11:8]`, a register number. -/
def fieldX (op : Word) : Fin 16 := (op.extractLsb' 8 4).toFin

/-- `y = op[7:4]`, a register number. -/
def fieldY (op : Word) : Fin 16 := (op.extractLsb' 4 4).toFin

/-- `n = op[3:0]`. -/
def fieldN (op : Word) : BitVec 4 := op.extractLsb' 0 4

/-- `kk = op[7:0]`. -/
def fieldKK (op : Word) : Byte := op.extractLsb' 0 8

/-- `nnn = op[11:0]`. -/
def fieldNNN (op : Word) : BitVec 12 := op.extractLsb' 0 12

/-! ## Decode (R73 to R76) -/

/-- Why an opcode is undefined (R78), by the group whose second-level dispatch has no case for it.
The other twelve groups reject nothing.
All four are the one fault `DecodeError` of 60_exceptions.md R211. -/
inductive Reject where
  /-- `0nnn` other than 00E0 and 00EE, `SYS addr` among them (R78, R79). -/
  | undefinedGroup0
  /-- `8xyN` with N one of 8 to D and F. -/
  | undefinedGroup8
  /-- `Exkk` with kk neither 9E nor A1. -/
  | undefinedGroupE
  /-- `Fxkk` with kk none of the nine defined. -/
  | undefinedGroupF
  deriving DecidableEq, Repr

/-- Group 0 is decoded on all of `op[11:0]` (R74). -/
def decodeGroup0 (op : Word) : Except Reject Instr :=
  match fieldNNN op with
  | 0x0E0#12 => .ok .cls
  | 0x0EE#12 => .ok .ret
  | _ => .error .undefinedGroup0

/-- Group 8 is decoded on `op[3:0]` (R74). -/
def decodeGroup8 (op : Word) : Except Reject Instr :=
  match fieldN op with
  | 0x0#4 => .ok (.ldReg (fieldX op) (fieldY op))
  | 0x1#4 => .ok (.orReg (fieldX op) (fieldY op))
  | 0x2#4 => .ok (.andReg (fieldX op) (fieldY op))
  | 0x3#4 => .ok (.xorReg (fieldX op) (fieldY op))
  | 0x4#4 => .ok (.addReg (fieldX op) (fieldY op))
  | 0x5#4 => .ok (.subReg (fieldX op) (fieldY op))
  | 0x6#4 => .ok (.shr (fieldX op) (fieldY op))
  | 0x7#4 => .ok (.subn (fieldX op) (fieldY op))
  | 0xE#4 => .ok (.shl (fieldX op) (fieldY op))
  | _ => .error .undefinedGroup8

/-- Group E is decoded on `op[7:0]` (R74). -/
def decodeGroupE (op : Word) : Except Reject Instr :=
  match fieldKK op with
  | 0x9E#8 => .ok (.skp (fieldX op))
  | 0xA1#8 => .ok (.sknp (fieldX op))
  | _ => .error .undefinedGroupE

/-- Group F is decoded on `op[7:0]` (R74). -/
def decodeGroupF (op : Word) : Except Reject Instr :=
  match fieldKK op with
  | 0x07#8 => .ok (.ldVxDT (fieldX op))
  | 0x0A#8 => .ok (.ldVxK (fieldX op))
  | 0x15#8 => .ok (.ldDTVx (fieldX op))
  | 0x18#8 => .ok (.ldSTVx (fieldX op))
  | 0x1E#8 => .ok (.addI (fieldX op))
  | 0x29#8 => .ok (.ldF (fieldX op))
  | 0x33#8 => .ok (.ldB (fieldX op))
  | 0x55#8 => .ok (.storeRegs (fieldX op))
  | 0x65#8 => .ok (.loadRegs (fieldX op))
  | _ => .error .undefinedGroupF

/-- The decoder: exactly one instruction, or a rejection by name; it reads nothing but the opcode (R73).
The last arm is group F, the one value of the nibble that is left. -/
def decodeOp (op : Word) : Except Reject Instr :=
  match fieldG op with
  | 0x0#4 => decodeGroup0 op
  | 0x1#4 => .ok (.jpAddr (fieldNNN op))
  | 0x2#4 => .ok (.callAddr (fieldNNN op))
  | 0x3#4 => .ok (.seByte (fieldX op) (fieldKK op))
  | 0x4#4 => .ok (.sneByte (fieldX op) (fieldKK op))
  | 0x5#4 => .ok (.seReg (fieldX op) (fieldY op) (fieldN op))
  | 0x6#4 => .ok (.ldByte (fieldX op) (fieldKK op))
  | 0x7#4 => .ok (.addByte (fieldX op) (fieldKK op))
  | 0x8#4 => decodeGroup8 op
  | 0x9#4 => .ok (.sneReg (fieldX op) (fieldY op) (fieldN op))
  | 0xA#4 => .ok (.ldI (fieldNNN op))
  | 0xB#4 => .ok (.jpV0 (fieldNNN op))
  | 0xC#4 => .ok (.rnd (fieldX op) (fieldKK op))
  | 0xD#4 => .ok (.drw (fieldX op) (fieldY op) (fieldN op).toFin)
  | 0xE#4 => decodeGroupE op
  | _ => decodeGroupF op

/-- An opcode from its two bytes, the high byte first (20_memory.md R50). -/
def opcodeOfBytes (hi lo : Byte) : Word := hi ++ lo

/-- The decoder on the two bytes of an instruction as they lie in memory. -/
def decodeBytes (hi lo : Byte) : Except Reject Instr := decodeOp (opcodeOfBytes hi lo)

/-! ## Encode (R71) -/

/-- A register number or sprite height as a nibble. -/
def nibble (x : Fin 16) : BitVec 4 := BitVec.ofFin x

/-- Format `NNN`. -/
def formatNNN (g : BitVec 4) (nnn : BitVec 12) : Word := g ++ nnn

/-- Formats `XKK` and `X` (where `kk` is the sub-opcode). -/
def formatXKK (g : BitVec 4) (x : Fin 16) (kk : Byte) : Word := g ++ nibble x ++ kk

/-- Formats `XY` and `XYN` (where `low` is the sub-opcode, the ignored nibble or `n`). -/
def formatXY (g : BitVec 4) (x y : Fin 16) (low : BitVec 4) : Word := g ++ nibble x ++ nibble y ++ low

/-- The opcode of an instruction, from the patterns of R76. -/
def encode : Instr → Word
  | .cls => 0x00E0#16
  | .ret => 0x00EE#16
  | .jpAddr nnn => formatNNN 0x1#4 nnn
  | .callAddr nnn => formatNNN 0x2#4 nnn
  | .seByte x kk => formatXKK 0x3#4 x kk
  | .sneByte x kk => formatXKK 0x4#4 x kk
  | .seReg x y low => formatXY 0x5#4 x y low
  | .ldByte x kk => formatXKK 0x6#4 x kk
  | .addByte x kk => formatXKK 0x7#4 x kk
  | .ldReg x y => formatXY 0x8#4 x y 0x0#4
  | .orReg x y => formatXY 0x8#4 x y 0x1#4
  | .andReg x y => formatXY 0x8#4 x y 0x2#4
  | .xorReg x y => formatXY 0x8#4 x y 0x3#4
  | .addReg x y => formatXY 0x8#4 x y 0x4#4
  | .subReg x y => formatXY 0x8#4 x y 0x5#4
  | .shr x y => formatXY 0x8#4 x y 0x6#4
  | .subn x y => formatXY 0x8#4 x y 0x7#4
  | .shl x y => formatXY 0x8#4 x y 0xE#4
  | .sneReg x y low => formatXY 0x9#4 x y low
  | .ldI nnn => formatNNN 0xA#4 nnn
  | .jpV0 nnn => formatNNN 0xB#4 nnn
  | .rnd x kk => formatXKK 0xC#4 x kk
  | .drw x y n => formatXY 0xD#4 x y (nibble n)
  | .skp x => formatXKK 0xE#4 x 0x9E#8
  | .sknp x => formatXKK 0xE#4 x 0xA1#8
  | .ldVxDT x => formatXKK 0xF#4 x 0x07#8
  | .ldVxK x => formatXKK 0xF#4 x 0x0A#8
  | .ldDTVx x => formatXKK 0xF#4 x 0x15#8
  | .ldSTVx x => formatXKK 0xF#4 x 0x18#8
  | .addI x => formatXKK 0xF#4 x 0x1E#8
  | .ldF x => formatXKK 0xF#4 x 0x29#8
  | .ldB x => formatXKK 0xF#4 x 0x33#8
  | .storeRegs x => formatXKK 0xF#4 x 0x55#8
  | .loadRegs x => formatXKK 0xF#4 x 0x65#8

/-! ## The opcode map as masks and matches (R76) -/

/-- A row of R76: an opcode `op` is the row's iff `op & mask = value`. -/
structure OpcodeRow where
  mask : Word
  value : Word
  deriving DecidableEq, Repr

/-- `op` selects the row (R76). -/
def OpcodeRow.selects (r : OpcodeRow) (op : Word) : Bool := op &&& r.mask == r.value

/-- The row an instruction belongs to. -/
def rowOf : Instr → OpcodeRow
  | .cls => ⟨0xFFFF, 0x00E0⟩
  | .ret => ⟨0xFFFF, 0x00EE⟩
  | .jpAddr _ => ⟨0xF000, 0x1000⟩
  | .callAddr _ => ⟨0xF000, 0x2000⟩
  | .seByte _ _ => ⟨0xF000, 0x3000⟩
  | .sneByte _ _ => ⟨0xF000, 0x4000⟩
  | .seReg _ _ _ => ⟨0xF000, 0x5000⟩
  | .ldByte _ _ => ⟨0xF000, 0x6000⟩
  | .addByte _ _ => ⟨0xF000, 0x7000⟩
  | .ldReg _ _ => ⟨0xF00F, 0x8000⟩
  | .orReg _ _ => ⟨0xF00F, 0x8001⟩
  | .andReg _ _ => ⟨0xF00F, 0x8002⟩
  | .xorReg _ _ => ⟨0xF00F, 0x8003⟩
  | .addReg _ _ => ⟨0xF00F, 0x8004⟩
  | .subReg _ _ => ⟨0xF00F, 0x8005⟩
  | .shr _ _ => ⟨0xF00F, 0x8006⟩
  | .subn _ _ => ⟨0xF00F, 0x8007⟩
  | .shl _ _ => ⟨0xF00F, 0x800E⟩
  | .sneReg _ _ _ => ⟨0xF000, 0x9000⟩
  | .ldI _ => ⟨0xF000, 0xA000⟩
  | .jpV0 _ => ⟨0xF000, 0xB000⟩
  | .rnd _ _ => ⟨0xF000, 0xC000⟩
  | .drw _ _ _ => ⟨0xF000, 0xD000⟩
  | .skp _ => ⟨0xF0FF, 0xE09E⟩
  | .sknp _ => ⟨0xF0FF, 0xE0A1⟩
  | .ldVxDT _ => ⟨0xF0FF, 0xF007⟩
  | .ldVxK _ => ⟨0xF0FF, 0xF00A⟩
  | .ldDTVx _ => ⟨0xF0FF, 0xF015⟩
  | .ldSTVx _ => ⟨0xF0FF, 0xF018⟩
  | .addI _ => ⟨0xF0FF, 0xF01E⟩
  | .ldF _ => ⟨0xF0FF, 0xF029⟩
  | .ldB _ => ⟨0xF0FF, 0xF033⟩
  | .storeRegs _ => ⟨0xF0FF, 0xF055⟩
  | .loadRegs _ => ⟨0xF0FF, 0xF065⟩

/-- Rows 1 to 17 of R76. -/
def opcodeTableLow : List OpcodeRow :=
  [⟨0xFFFF, 0x00E0⟩, ⟨0xFFFF, 0x00EE⟩, ⟨0xF000, 0x1000⟩, ⟨0xF000, 0x2000⟩, ⟨0xF000, 0x3000⟩, ⟨0xF000, 0x4000⟩,
   ⟨0xF000, 0x5000⟩, ⟨0xF000, 0x6000⟩, ⟨0xF000, 0x7000⟩, ⟨0xF00F, 0x8000⟩, ⟨0xF00F, 0x8001⟩, ⟨0xF00F, 0x8002⟩,
   ⟨0xF00F, 0x8003⟩, ⟨0xF00F, 0x8004⟩, ⟨0xF00F, 0x8005⟩, ⟨0xF00F, 0x8006⟩, ⟨0xF00F, 0x8007⟩]

/-- Rows 18 to 34 of R76. -/
def opcodeTableHigh : List OpcodeRow :=
  [⟨0xF00F, 0x800E⟩, ⟨0xF000, 0x9000⟩, ⟨0xF000, 0xA000⟩, ⟨0xF000, 0xB000⟩, ⟨0xF000, 0xC000⟩, ⟨0xF000, 0xD000⟩,
   ⟨0xF0FF, 0xE09E⟩, ⟨0xF0FF, 0xE0A1⟩, ⟨0xF0FF, 0xF007⟩, ⟨0xF0FF, 0xF00A⟩, ⟨0xF0FF, 0xF015⟩, ⟨0xF0FF, 0xF018⟩,
   ⟨0xF0FF, 0xF01E⟩, ⟨0xF0FF, 0xF029⟩, ⟨0xF0FF, 0xF033⟩, ⟨0xF0FF, 0xF055⟩, ⟨0xF0FF, 0xF065⟩]

/-- The 34 rows of R76, in its order. -/
def opcodeTable : List OpcodeRow := opcodeTableLow ++ opcodeTableHigh

/-! ## The table's words, for the host -/

/-- The opcode whose bits are `w`, numbered as spec/opcode_table.json numbers them, the bits from `nbits` up being 0. -/
def tableWord (nbits w : Nat) : Word := BitVec.ofNat 16 (w % 2 ^ nbits)

/-- The byte of an opcode that lies at the lower address, its high byte (20_memory.md R50). -/
def highByte (op : Word) : Byte := op.extractLsb' 8 8

/-- The byte of an opcode that lies at the higher address. -/
def lowByte (op : Word) : Byte := op.extractLsb' 0 8

/-- The instruction this decoder reads from the instruction whose bits are `w`. -/
def decodeTableWord (nbits w : Nat) : Option Instr :=
  match decodeBytes (highByte (tableWord nbits w)) (lowByte (tableWord nbits w)) with
  | .ok i => some i
  | .error _ => none

end Sys2Proof
end

