-- ==== Sys2Proof/Config.lean ====
section
/-! DEFINITION. What is fixed for the machine (00_scope.md R6) and the one open parameter, the random byte (R7, 43_random.md R135).
The font (10_state.md R41) is in Machine/Ops.lean and the lit cell's byte (92_eei_decisions.md D15) in Machine/HostOps.lean. -/

namespace Sys2Proof

/-- `MEM_SIZE` (R6): addresses are 0x000..0xFFF. -/
abbrev Config.memSize : Nat := 4096

/-- `PROG_BASE` (R6): where `load` copies an image, and `PC` after reset. -/
abbrev Config.progBase : Nat := 0x200

/-- `MAX_ROM` (R6): the longest image `load` accepts. -/
abbrev Config.maxRom : Nat := 3584

/-- `DISP_W` (R6): the cells of a row; `DISP_H`, 32 rows, is the length of `Machine.Grid`. -/
abbrev Config.dispW : Nat := 64

/-- `FRAME_LEN` (R6). -/
abbrev Config.frameLen : Nat := 2048

/-- `STATE_LEN` (R6, 48_state_serializer.md R196). -/
abbrev Config.stateLen : Nat := 4409

/-- `draw8()` (00_scope.md R11, 43_random.md R135): the byte the environment supplies to the `k`-th RND of a run.
DESIGN CHOICE (assumption 1): a free value. It has no body, so nothing can be proved about it, and a claim that goes through
holds whatever the environment draws.
Safe. -/
opaque Config.draw : Nat → Byte

end Sys2Proof
end

