-- ==== Sys2Proof/Machine/State.lean ====
section
/-! DEFINITION. The machine's state: the ten fields of MachineState (10_state.md R20 to R34) and three of the model's own.

Everything the spec gives the machine is here, and R20, R36 and R37 say that there is nothing else.
The model's own fields are what the environment and the host hold beside MachineState: the result of the last `step`
(40_step_cycle.md R90), the sticky record of faults that 60_exceptions.md R219 asks a model to keep, and how many random
bytes have been drawn (43_random.md R135). -/

namespace Sys2Proof.Machine

/-- A step fault with its `info` (60_exceptions.md R210), raised by `step` and by nothing else.
A fault does not stop the machine (R219): the step that raises one answers a next state, which records it in `result` and in
`faults` (assumption 2), so no step answers `Host.Outcome.fault`.
Safe as long as a claim about a run looks at `faults`, as R219 advises. -/
inductive Fault where
  /-- Code 1, raised by decode of an undefined opcode `op` (R211). Safe: the spec's own fault. -/
  | decodeError (op : Word)
  /-- Code 2, raised by CALL with `SP >= 16` (R212). Safe: the spec's own fault. -/
  | stackOverflow (op : Word)
  /-- Code 3, raised by RET with `SP = 0` or `SP > 16` (R212). Safe: the spec's own fault. -/
  | stackUnderflow (op : Word)
  /-- Code 4, raised by a fetch, DRW, LD B, LD [I] or LD Vx,[I] that would use an address above 0xFFF (R214); `first` is the
  first address of the access. Safe: the spec's own fault. -/
  | addressFault (first : Word)
  /-- Code 5, raised by SKP and SKNP when `vx > 15` (R215). Safe: the spec's own fault. -/
  | keyIndexFault (op : Word)
  deriving DecidableEq, Repr

/-- Why an instruction would have no meaning here. -/
inductive Refusal where
  /-- An arm of `exec` that has no meaning yet, by its mnemonic; no arm is left so. Safe: nothing is claimed of such a step. -/
  | notModelled (mnemonic : String)
  deriving DecidableEq, Repr

/-- Memory as the list of the (address, byte) pairs that differ from the reset contents, addresses rising. -/
abbrev Memory := List Host.Cell

/-- The grid as 32 rows, row 0 the top one; bit `px` of row `py` is the cell `disp(px,py) = disp[py*64 + px]` (R32). -/
abbrev Grid := Vector (BitVec 64) 32

/-- The machine (R20). -/
structure State where
  /-- `mem`, 4096 bytes, for code and data alike (R31). -/
  mem : Memory
  /-- `V0`..`VF` (R21); `VF` is also the flag (R24). -/
  v : Vector Byte 16
  /-- `I`, the index register, 16 bits and never masked (R26). -/
  i : Word
  /-- `PC` (R23). -/
  pc : Word
  /-- The call stack's 16 slots (R30). -/
  stack : Vector Word 16
  /-- `SP`, the number of occupied slots, held in 8 bits (R27). -/
  sp : Byte
  /-- `DT`, the delay timer (R28). -/
  dt : Byte
  /-- `ST`, the sound timer (R28). -/
  st : Byte
  /-- `disp`, the 64 × 32 grid (R32). -/
  disp : Grid
  /-- `key`: bit `k` is 1 iff key `k` is down (R29). -/
  key : BitVec 16
  /-- The model's own: the result of the last step, `none` for `Ok` (40_step_cycle.md R90). -/
  result : Option Fault
  /-- The model's own: every fault a step has returned, the latest first, never cleared (60_exceptions.md R219). -/
  faults : List Fault
  /-- The model's own: how many bytes RND has drawn (assumption 1). -/
  draws : Nat
  deriving DecidableEq, Repr

/-- The machine right after `init` (R40): memory lists nothing, so every byte reads as its reset contents, the font at
0x000..0x04F and zero above (R31).
The three fields of the model's own start empty (DESIGN CHOICE, assumption 10, unsafe only for a claim that reads `draws`). -/
def State.reset : State where
  mem := []
  v := Vector.replicate 16 0
  i := 0
  pc := 0x200
  stack := Vector.replicate 16 0
  sp := 0
  dt := 0
  st := 0
  disp := Vector.replicate 32 0
  key := 0
  result := none
  faults := []
  draws := 0

end Sys2Proof.Machine
end

