-- ==== Sys2Proof/Machine/Ops.lean ====
section
/-! DEFINITION. The named operations over memory, registers, the stack and the timers, and the taking of a fault.

Every meaning is built from these, so that bounds, byte order and what a fault leaves behind are decided once. -/

namespace Sys2Proof.Machine

/-! ## Memory (20_memory.md) -/

/-- `FONT`, glyphs 0 to 7 (10_state.md R41), five bytes a glyph, top row first. -/
def fontLow : List Byte :=
  [0xF0, 0x90, 0x90, 0x90, 0xF0, 0x20, 0x60, 0x20, 0x20, 0x70,
   0xF0, 0x10, 0xF0, 0x80, 0xF0, 0xF0, 0x10, 0xF0, 0x10, 0xF0,
   0x90, 0x90, 0xF0, 0x10, 0x10, 0xF0, 0x80, 0xF0, 0x10, 0xF0,
   0xF0, 0x80, 0xF0, 0x90, 0xF0, 0xF0, 0x10, 0x20, 0x40, 0x40]

/-- `FONT`, glyphs 8 to F (R41). -/
def fontHigh : List Byte :=
  [0xF0, 0x90, 0xF0, 0x90, 0xF0, 0xF0, 0x90, 0xF0, 0x10, 0xF0,
   0xF0, 0x90, 0xF0, 0x90, 0x90, 0xE0, 0x90, 0xE0, 0x90, 0xE0,
   0xF0, 0x80, 0x80, 0x80, 0xF0, 0xE0, 0x90, 0x90, 0x90, 0xE0,
   0xF0, 0x80, 0xF0, 0x80, 0xF0, 0xF0, 0x80, 0xF0, 0x80, 0x80]

/-- `FONT` (R41): 16 glyphs of 5 bytes, the configuration constant the rule asks for (general knowledge GK6, assumption 12). -/
def font : List Byte := fontLow ++ fontHigh

/-- What an address that memory does not list reads as: its reset contents (10_state.md R31, R40, R41). -/
def initialByte (a : Nat) : Byte := font.getD a 0

/-- The byte at address `a`. Every caller has checked `a` against R56's bound. -/
def Memory.read : Memory → Nat → Byte
  | [], a => initialByte a
  | (k, b) :: m, a => if a = k then b else Memory.read m a

/-- How one byte is listed: not at all if it is the address's reset contents. -/
def listedCell (a : Nat) (b : Byte) : Memory := if b = initialByte a then [] else [(a, b)]

/-- `MemWrite(a, 1, b)` (00_scope.md R11); it keeps the canonical form. -/
def Memory.write : Memory → Nat → Byte → Memory
  | [], a, b => listedCell a b
  | (k, c) :: m, a, b =>
    if a < k then listedCell a b ++ (k, c) :: m
    else if a = k then listedCell a b ++ m
    else (k, c) :: Memory.write m a b

/-- Consecutive bytes from `a` upward, in order. -/
def Memory.writeFrom : Memory → Nat → List Byte → Memory
  | m, _, [] => m
  | m, a, b :: bs => Memory.writeFrom (Memory.write m a b) (a + 1) bs

/-- The `n` bytes at `a .. a+n-1`. -/
def Memory.readFrom (m : Memory) (a n : Nat) : List Byte := (List.range n).map fun k => m.read (a + k)

/-- The canonical form: addresses strictly rising, all below 4096, no byte equal to its reset contents.
Memories in this form are equal iff they read alike. -/
abbrev Memory.wf (m : Memory) : Prop :=
  m.Pairwise (fun p q => p.1 < q.1) ∧ ∀ c ∈ m, c.1 < Config.memSize ∧ c.2 ≠ initialByte c.1

/-- R56: an access of `n` bytes from `base` stays in 0x000..0xFFF, the sum unbounded; no bytes, no check. -/
def inMemory (base : Word) (n : Nat) : Bool := n == 0 || decide (base.toNat + n - 1 ≤ 0xFFF)

/-- `MemRead` of `n` bytes (00_scope.md R11), the whole range checked first (R56). -/
def loadBytes (base : Word) (n : Nat) (s : State) : Except Fault (List Byte) :=
  if inMemory base n then .ok (s.mem.readFrom base.toNat n) else .error (.addressFault base)

/-- `MemWrite` of the bytes `bs` from `base` upward, the whole range checked before any byte is written (R56). -/
def storeBytes (base : Word) (bs : List Byte) (s : State) : Except Fault State :=
  if inMemory base bs.length then .ok { s with mem := s.mem.writeFrom base.toNat bs } else .error (.addressFault base)

/-! ## Registers -/

/-- `V[x]`. -/
def State.reg (s : State) (x : Fin 16) : Byte := s.v[x]

/-- `V[x] <- b`. -/
def State.setReg (x : Fin 16) (b : Byte) (s : State) : State := { s with v := s.v.set x b }

/-- `VF <- b` (10_state.md R24). -/
def State.setFlag (b : Byte) (s : State) : State := s.setReg 15 b

/-- `I <- w`. -/
def State.setI (w : Word) (s : State) : State := { s with i := w }

/-- `PC <- w`. -/
def State.setPc (w : Word) (s : State) : State := { s with pc := w }

/-- `PC <- PC + 2`, one instruction further: what the advance (40_step_cycle.md R92) and a taken skip
(42_control_flow.md R130) add. -/
def State.skip (s : State) : State := s.setPc (s.pc + 2)

/-- `DT <- b`. -/
def State.setDT (b : Byte) (s : State) : State := { s with dt := b }

/-- `ST <- b`. -/
def State.setST (b : Byte) (s : State) : State := { s with st := b }

/-- `disp <- d`. -/
def State.setDisp (d : Grid) (s : State) : State := { s with disp := d }

/-- The next random byte and the state with it used up (43_random.md R135; assumption 1). -/
def State.draw8 (s : State) : Byte × State := (Config.draw s.draws, { s with draws := s.draws + 1 })

/-! ## The call stack (42_control_flow.md R124, R125) -/

/-- `stack[SP] <- w; SP <- SP + 1`, or the overflow fault with nothing written. -/
def push (op w : Word) (s : State) : Except Fault State :=
  if h : s.sp.toNat < 16 then .ok { s with stack := s.stack.set s.sp.toNat w, sp := s.sp + 1 } else .error (.stackOverflow op)

/-- `SP <- SP - 1`, with the slot then at `SP`, or the underflow fault with nothing written. The slot keeps its value. -/
def pop (op : Word) (s : State) : Except Fault (Word × State) :=
  if h : 1 ≤ s.sp.toNat ∧ s.sp.toNat ≤ 16 then .ok (s.stack[s.sp.toNat - 1], { s with sp := s.sp - 1 })
  else .error (.stackUnderflow op)

/-! ## Faults (60_exceptions.md) -/

/-- The numeric code of a fault (R210). -/
def Fault.code : Fault → Nat
  | .decodeError _ => 1
  | .stackOverflow _ => 2
  | .stackUnderflow _ => 3
  | .addressFault _ => 4
  | .keyIndexFault _ => 5

/-- The `info` of a fault (R210). -/
def Fault.info : Fault → Word
  | .decodeError op => op
  | .stackOverflow op => op
  | .stackUnderflow op => op
  | .addressFault first => first
  | .keyIndexFault op => op

/-- Fault entry (R217): the step's result is the fault and nothing inside the machine changes; there is no vector, no saved
register, no mode. That `PC` stands past the instruction, or not, is the caller's state.
There is no return from a fault (R220). -/
def takeFault (f : Fault) (s : State) : State := { s with result := some f, faults := f :: s.faults }

/-- The end of a meaning whose precondition has been checked by an operation: its state, or the fault taken in the state
it began in (40_step_cycle.md R93). -/
def settle (s : State) : Except Fault State → Host.Outcome State Fault Refusal
  | .ok t => .next t
  | .error f => .next (takeFault f s)

/-! ## The phases of a step (40_step_cycle.md R90) -/

/-- Fetch (R91): the opcode at `PC`, high byte first (20_memory.md R50), or the address fault. -/
def fetch (s : State) : Except Fault Word :=
  (loadBytes s.pc 2 s).map fun bs => opcodeOfBytes (bs.getD 0 0) (bs.getD 1 0)

/-- Advance (R92), which also starts the step's result as `Ok`. -/
def advance (s : State) : State := { s.skip with result := none }

/-- One timer's tick: down by one, floored at 0 (R95). -/
def countDown (t : Byte) : Byte := if 0 < t.toNat then t - 1 else t

/-- The timer tick (R95). -/
def tick (s : State) : State := { s with dt := countDown s.dt, st := countDown s.st }

/-- The end of a step: the tick, unless the step faulted (R96). -/
def endStep (s : State) : State := if s.result = none then tick s else s

end Sys2Proof.Machine
end

