-- ==== Sys2Proof/Machine/Flags.lean ====
section
/-! DEFINITION. The values `VF` is given as a flag (10_state.md R24, 41_arithmetic_logic.md R112).

A flag is computed from the latched operands, is 0x00 or 0x01, and is written after the result (10_state.md R25). -/

namespace Sys2Proof.Machine

/-- A flag as a register value. -/
def flagByte (b : Bool) : Byte := if b then 1 else 0

/-- The carry of ADD (R106): the unsigned sum exceeds 255. -/
def carryFlag (vx vy : Byte) : Byte := flagByte (decide (vx.toNat + vy.toNat > 255))

/-- The flag of SUB and, with its operands reversed, of SUBN (R107, R108): strictly greater. -/
def greaterFlag (a b : Byte) : Byte := flagByte (decide (a.toNat > b.toNat))

/-- The flag of SHR (R109): the bit shifted out, bit 0. -/
def lowBitFlag (vx : Byte) : Byte := flagByte (vx.getLsbD 0)

/-- The flag of SHL (R110): the bit shifted out, bit 7. -/
def highBitFlag (vx : Byte) : Byte := flagByte (vx.getLsbD 7)

/-- `V[x] <- r`, then `VF <- flag`, the flag last (10_state.md R25): with `x = F` the result is lost. -/
def State.setRegThenFlag (x : Fin 16) (r flag : Byte) (s : State) : State := (s.setReg x r).setFlag flag

end Sys2Proof.Machine
end

