-- ==== Sys2Proof/Machine/Arith.lean ====
section
/-! DEFINITION. Arithmetic and logic (41_arithmetic_logic.md): eleven meanings over 8-bit registers.

Each reads the latched registers, writes `V[x]` and, for the five of R112, `VF`, and nothing else (R113); none can fault. -/

namespace Sys2Proof.Machine

/-- LD Vx, byte (R101). -/
def execLdByte (x : Fin 16) (kk : Byte) (s : State) : Host.Outcome State Fault Refusal :=
  .next (s.setReg x kk)

/-- ADD Vx, byte (R102): modulo 256, `VF` not a flag here. -/
def execAddByte (x : Fin 16) (kk : Byte) (s : State) : Host.Outcome State Fault Refusal :=
  .next (s.setReg x (s.reg x + kk))

/-- LD Vx, Vy (R103). -/
def execLdReg (x y : Fin 16) (s : State) : Host.Outcome State Fault Refusal :=
  .next (s.setReg x (s.reg y))

/-- OR Vx, Vy (R104). -/
def execOrReg (x y : Fin 16) (s : State) : Host.Outcome State Fault Refusal :=
  .next (s.setReg x (s.reg x ||| s.reg y))

/-- AND Vx, Vy (R105). -/
def execAndReg (x y : Fin 16) (s : State) : Host.Outcome State Fault Refusal :=
  .next (s.setReg x (s.reg x &&& s.reg y))

/-- XOR Vx, Vy (R111). -/
def execXorReg (x y : Fin 16) (s : State) : Host.Outcome State Fault Refusal :=
  .next (s.setReg x (s.reg x ^^^ s.reg y))

/-- ADD Vx, Vy (R106). -/
def execAddReg (x y : Fin 16) (s : State) : Host.Outcome State Fault Refusal :=
  .next (s.setRegThenFlag x (s.reg x + s.reg y) (carryFlag (s.reg x) (s.reg y)))

/-- SUB Vx, Vy (R107). -/
def execSubReg (x y : Fin 16) (s : State) : Host.Outcome State Fault Refusal :=
  .next (s.setRegThenFlag x (s.reg x - s.reg y) (greaterFlag (s.reg x) (s.reg y)))

/-- SUBN Vx, Vy (R108). -/
def execSubn (x y : Fin 16) (s : State) : Host.Outcome State Fault Refusal :=
  .next (s.setRegThenFlag x (s.reg y - s.reg x) (greaterFlag (s.reg y) (s.reg x)))

/-- SHR Vx (R109): `Vx` itself by one, `y` not read. -/
def execShr (x : Fin 16) (s : State) : Host.Outcome State Fault Refusal :=
  .next (s.setRegThenFlag x (s.reg x >>> 1) (lowBitFlag (s.reg x)))

/-- SHL Vx (R110): `Vx` itself by one, `y` not read. -/
def execShl (x : Fin 16) (s : State) : Host.Outcome State Fault Refusal :=
  .next (s.setRegThenFlag x (s.reg x <<< 1) (highBitFlag (s.reg x)))

end Sys2Proof.Machine
end

