-- ==== Sys2Proof/Machine/Operands.lean ====
section
/-! DEFINITION. What an instruction's operands stand for: the keypad, the font address, the register block, the decimal digits.

The plain operands `Vx`, `Vy`, `byte`, `addr`, `DT`, `ST` and `I` are read with `State.reg`, as the argument itself, with
`zextAddr`, and from the state's fields. Operands are latched: a meaning reads the state it was given (00_scope.md R12). -/

namespace Sys2Proof.Machine

/-- `key[k] = 1` (10_state.md R29); there is no key from 16 up. -/
def keyDown (s : State) (k : Nat) : Bool := s.key.getLsbD k

/-- The key number in a V register, or the key index fault (45_timers_input.md R153, 60_exceptions.md R215). -/
def keyOperand (op : Word) (vx : Byte) : Except Fault Nat :=
  if vx.toNat > 15 then .error (.keyIndexFault op) else .ok vx.toNat

/-- The least key that is down (45_timers_input.md R155). -/
def firstKeyDown (s : State) : Option Nat := (List.range 16).find? fun k => keyDown s k

/-- The font operand `F` (46_memory_index.md R167): `zext_16(vx) * 5`, the whole of `vx`. -/
def glyphAddress (vx : Byte) : Word := zext16 vx * 5

/-- The operand `B` (46_memory_index.md R168): the decimal digits, hundreds first. -/
def decimalDigits (vx : Byte) : List Byte :=
  [BitVec.ofNat 8 (vx.toNat / 100), BitVec.ofNat 8 (vx.toNat / 10 % 10), BitVec.ofNat 8 (vx.toNat % 10)]

/-- `V0 .. Vx`, `V0` first (46_memory_index.md R169). -/
def regsUpTo (x : Fin 16) (s : State) : List Byte := s.v.toList.take (x.val + 1)

/-- `V[k] <- bs[k]` for `k` in 0..x; the registers above `x` keep their values (46_memory_index.md R170). -/
def setRegsUpTo (x : Fin 16) (bs : List Byte) (s : State) : State :=
  { s with v := Vector.ofFn fun k : Fin 16 => if k ≤ x then bs.getD k.val 0 else s.reg k }

end Sys2Proof.Machine
end

