-- ==== Sys2Proof/Machine/Control.lean ====
section
/-! DEFINITION. Control flow (42_control_flow.md): jumps, call and return, the four register skips.

`PC` in the state a meaning is given is already past the instruction (40_step_cycle.md R92). -/

namespace Sys2Proof.Machine

/-- A conditional skip (R130): two more bytes, whatever they hold. -/
def skipIf (c : Bool) (s : State) : State := if c then s.skip else s

/-- RET (R125). -/
def execRet (s : State) : Host.Outcome State Fault Refusal :=
  settle s ((pop (encode .ret) s).map fun r => r.2.setPc r.1)

/-- JP addr (R122). -/
def execJpAddr (nnn : BitVec 12) (s : State) : Host.Outcome State Fault Refusal :=
  .next (s.setPc (zextAddr nnn))

/-- CALL addr (R124): the return address is the advanced `PC`. -/
def execCallAddr (nnn : BitVec 12) (s : State) : Host.Outcome State Fault Refusal :=
  settle s ((push (encode (.callAddr nnn)) s.pc s).map (State.setPc (zextAddr nnn)))

/-- JP V0, addr (R123): always `V0`. -/
def execJpV0 (nnn : BitVec 12) (s : State) : Host.Outcome State Fault Refusal :=
  .next (s.setPc (zextAddr nnn + zext16 (s.reg 0)))

/-- SE Vx, byte (R126). -/
def execSeByte (x : Fin 16) (kk : Byte) (s : State) : Host.Outcome State Fault Refusal :=
  .next (skipIf (s.reg x == kk) s)

/-- SNE Vx, byte (R127). -/
def execSneByte (x : Fin 16) (kk : Byte) (s : State) : Host.Outcome State Fault Refusal :=
  .next (skipIf (s.reg x != kk) s)

/-- SE Vx, Vy (R128), whatever the low nibble (30_encoding.md R75). -/
def execSeReg (x y : Fin 16) (s : State) : Host.Outcome State Fault Refusal :=
  .next (skipIf (s.reg x == s.reg y) s)

/-- SNE Vx, Vy (R129), whatever the low nibble (30_encoding.md R75). -/
def execSneReg (x y : Fin 16) (s : State) : Host.Outcome State Fault Refusal :=
  .next (skipIf (s.reg x != s.reg y) s)

end Sys2Proof.Machine
end

