-- ==== Sys2Proof/Machine/Display.lean ====
section
/-! DEFINITION. The display (44_display.md): clearing the grid and drawing a sprite by XOR. -/

namespace Sys2Proof.Machine

/-- The cell `disp(px,py)`; a place off the grid is no cell and reads as off (10_state.md R32). -/
def Grid.cell (d : Grid) (px py : Nat) : Bool :=
  if h : py < 32 then d[py].getLsbD px else false

/-- `disp(px,py) <- disp(px,py) XOR 1`; a pixel off the grid is dropped (R142, R143). -/
def Grid.toggle (d : Grid) (px py : Nat) : Grid :=
  if h : py < 32 then d.set py (d[py] ^^^ BitVec.twoPow 64 px) else d

/-- One set bit of a sprite: the cell is toggled, and `coll` is raised if it was on (R142). -/
def drawPixel (px py : Nat) (g : Grid × Bool) : Grid × Bool :=
  if px ≤ 63 ∧ py ≤ 31 then (g.1.toggle px py, g.2 || g.1.cell px py) else g

/-- One sprite row at row `py`, column `c` of 0..7 from `vx` on, bit 7 leftmost (R142, R143). -/
def drawRow (b : Byte) (vx py : Nat) (g : Grid × Bool) : Grid × Bool :=
  (List.range 8).foldl (fun g c => if b.getLsbD (7 - c) then drawPixel (vx + c) py g else g) g

/-- The sprite rows `bs`, top first, from row `py` down (R142). -/
def drawRows : List Byte → Nat → Nat → Grid × Bool → Grid × Bool
  | [], _, _, g => g
  | b :: bs, vx, py, g => drawRows bs vx (py + 1) (drawRow b vx py g)

/-- The sprite `bs` drawn into the state: the grid, then `VF` as the collision flag, last (R142). -/
def drawSprite (bs : List Byte) (vx vy : Byte) (s : State) : State :=
  let g := drawRows bs vx.toNat vy.toNat (s.disp, false)
  (s.setDisp g.1).setFlag (flagByte g.2)

/-- CLS (R141). -/
def execCls (s : State) : Host.Outcome State Fault Refusal :=
  .next (s.setDisp (Vector.replicate 32 0))

/-- DRW Vx, Vy, n (R142): the `n` sprite bytes are checked and read first, so a fault changes no cell. -/
def execDrw (x y n : Fin 16) (s : State) : Host.Outcome State Fault Refusal :=
  settle s ((loadBytes s.i n.val s).map fun bs => drawSprite bs (s.reg x) (s.reg y) s)

end Sys2Proof.Machine
end

