-- ==== Sys2Proof/Machine/IndexMem.lean ====
section
/-! DEFINITION. The index register and memory (46_memory_index.md).

The one addressing mode is `I` plus a small offset, never wrapped, and `I` is left alone by every access (R171). -/

namespace Sys2Proof.Machine

/-- LD I, addr (R165). -/
def execLdI (nnn : BitVec 12) (s : State) : Host.Outcome State Fault Refusal :=
  .next (s.setI (zextAddr nnn))

/-- ADD I, Vx (R166): modulo 65536, no flag. -/
def execAddI (x : Fin 16) (s : State) : Host.Outcome State Fault Refusal :=
  .next (s.setI (s.i + zext16 (s.reg x)))

/-- LD F, Vx (R167). -/
def execLdF (x : Fin 16) (s : State) : Host.Outcome State Fault Refusal :=
  .next (s.setI (glyphAddress (s.reg x)))

/-- LD B, Vx (R168). -/
def execLdB (x : Fin 16) (s : State) : Host.Outcome State Fault Refusal :=
  settle s (storeBytes s.i (decimalDigits (s.reg x)) s)

/-- LD [I], Vx (R169). -/
def execStoreRegs (x : Fin 16) (s : State) : Host.Outcome State Fault Refusal :=
  settle s (storeBytes s.i (regsUpTo x s) s)

/-- LD Vx, [I] (R170). -/
def execLoadRegs (x : Fin 16) (s : State) : Host.Outcome State Fault Refusal :=
  settle s ((loadBytes s.i (x.val + 1) s).map fun bs => setRegsUpTo x bs s)

end Sys2Proof.Machine
end

