-- ==== Sys2Proof/Machine/Random.lean ====
section
/-! DEFINITION. The random instruction (43_random.md), the only one whose result depends on anything but MachineState (R137). -/

namespace Sys2Proof.Machine

/-- RND Vx, byte (R136): the environment's byte ANDed with the mask.
The byte is a free value (assumption 1). -/
def execRnd (x : Fin 16) (kk : Byte) (s : State) : Host.Outcome State Fault Refusal :=
  .next (s.draw8.2.setReg x (s.draw8.1 &&& kk))

end Sys2Proof.Machine
end

