-- ==== Sys2Proof/Machine/TimerKey.lean ====
section
/-! DEFINITION. Timers and keypad (45_timers_input.md). -/

namespace Sys2Proof.Machine

/-- LD Vx, DT (R150): the value before this step's tick. -/
def execLdVxDT (x : Fin 16) (s : State) : Host.Outcome State Fault Refusal :=
  .next (s.setReg x s.dt)

/-- LD DT, Vx (R151); the same step's tick follows. -/
def execLdDTVx (x : Fin 16) (s : State) : Host.Outcome State Fault Refusal :=
  .next (s.setDT (s.reg x))

/-- LD ST, Vx (R152); the same step's tick follows. -/
def execLdSTVx (x : Fin 16) (s : State) : Host.Outcome State Fault Refusal :=
  .next (s.setST (s.reg x))

/-- SKP Vx (R153). -/
def execSkp (x : Fin 16) (s : State) : Host.Outcome State Fault Refusal :=
  settle s ((keyOperand (encode (.skp x)) (s.reg x)).map fun k => skipIf (keyDown s k) s)

/-- SKNP Vx (R154). -/
def execSknp (x : Fin 16) (s : State) : Host.Outcome State Fault Refusal :=
  settle s ((keyOperand (encode (.sknp x)) (s.reg x)).map fun k => skipIf (!keyDown s k) s)

/-- LD Vx, K (R155): the least key that is down, or `PC` back on this instruction. -/
def execLdVxK (x : Fin 16) (s : State) : Host.Outcome State Fault Refusal :=
  match firstKeyDown s with
  | some k => .next (s.setReg x (BitVec.ofNat 8 k))
  | none => .next (s.setPc (s.pc - 2))

end Sys2Proof.Machine
end

