-- ==== Sys2Proof/Machine/Step.lean ====
section
/-! DEFINITION. One step (40_step_cycle.md R90): fetch, advance, decode and execute, timer tick.

Every phase is an operation of Machine/Ops.lean; this file only orders them. -/

namespace Sys2Proof.Machine

/-- `step()` (R90). A fetch fault leaves `PC` where it was (R91), every other fault leaves it past the instruction (R92). -/
def step (s : State) : Host.Outcome State Fault Refusal :=
  match fetch s with
  | .error f => .next (takeFault f s)
  | .ok op =>
    match decodeOp op with
    | .error _ => .next (takeFault (.decodeError op) (advance s))
    | .ok i =>
      match exec i (advance s) with
      | .next t => .next (endStep t)
      | .fault f => .fault f
      | .refused r => .refused r

/-- The state with `PC` where an instruction can be fetched: the same unless `PC > 0xFFE`, where none can (R91). -/
def State.atFetchable (s : State) : State := if inMemory s.pc 2 then s else s.setPc 0x200

/-- The state with the instruction whose bits are `w` stored where the next step fetches, so that the step runs exactly it
(assumption 4).
Only where no instruction can be fetched at `PC` is `PC` moved to the program area. -/
def State.withFetchWord (s : State) (nbits w : Nat) : State :=
  let t := s.atFetchable
  { t with mem := t.mem.writeFrom t.pc.toNat [highByte (tableWord nbits w), lowByte (tableWord nbits w)] }

end Sys2Proof.Machine
end

