-- ==== Sys2Proof/Machine/Serializer.lean ====
section
/-! DEFINITION. The state serializer (48_state_serializer.md): the ten fields of MachineState as 4409 bytes.

The model's own fields `result`, `faults` and `draws` are outside MachineState and outside the blob (R195). -/

namespace Sys2Proof.Machine

/-- A 16-bit field, high byte first (R196). -/
def bigEndian (w : Word) : List Byte := [highByte w, lowByte w]

/-- `get_state()` (R196, R197): memory, V, I, PC, stack, SP, DT, ST, display, keypad, in this order.
Byte `k` of the display part holds cells `8k .. 8k+7`, the cell of lower index in the lower bit (R198): it is byte `k mod 8`,
counted from the low end, of row `k div 8`. -/
def getState (s : State) : List Byte :=
  s.mem.readFrom 0 Config.memSize
    ++ s.v.toList
    ++ bigEndian s.i
    ++ bigEndian s.pc
    ++ s.stack.toList.flatMap bigEndian
    ++ [s.sp, s.dt, s.st]
    ++ s.disp.toList.flatMap (fun row => (List.range 8).map fun j => row.extractLsb' (8 * j) 8)
    ++ bigEndian s.key

/-- A 16-bit field of the blob at offset `k`, high byte first (R196). -/
def wordAt (bytes : List Byte) (k : Nat) : Word := opcodeOfBytes (bytes.getD k 0) (bytes.getD (k + 1) 0)

/-- A grid row of the blob at offset `k`: eight bytes, the first the lowest (R196, R198). -/
def rowAt (bytes : List Byte) (k : Nat) : BitVec 64 :=
  bytes.getD (k + 7) 0 ++ bytes.getD (k + 6) 0 ++ bytes.getD (k + 5) 0 ++ bytes.getD (k + 4) 0
    ++ bytes.getD (k + 3) 0 ++ bytes.getD (k + 2) 0 ++ bytes.getD (k + 1) 0 ++ bytes.getD k 0

/-- Memory holding `bytes` from address `a` up and its reset contents elsewhere, in canonical form. -/
def Memory.ofBytes : Nat → List Byte → Memory
  | _, [] => []
  | a, b :: bs => listedCell a b ++ Memory.ofBytes (a + 1) bs

/-- Every field of MachineState read from a blob by R196, whatever its values (R199); the model's own fields stay. -/
def decodeBlob (bytes : List Byte) (s : State) : State :=
  { s with
    mem := Memory.ofBytes 0 (bytes.take Config.memSize)
    v := Vector.ofFn fun k : Fin 16 => bytes.getD (4096 + k.val) 0
    i := wordAt bytes 4112
    pc := wordAt bytes 4114
    stack := Vector.ofFn fun k : Fin 16 => wordAt bytes (4116 + 2 * k.val)
    sp := bytes.getD 4148 0
    dt := bytes.getD 4149 0
    st := bytes.getD 4150 0
    disp := Vector.ofFn fun k : Fin 32 => rowAt bytes (4151 + 8 * k.val)
    key := wordAt bytes 4407 }

end Sys2Proof.Machine
end

