-- ==== Sys2Proof/Machine/HostOps.lean ====
section
/-! DEFINITION. The seven operations of the core (47_host_operations.md R181), each one atomic move of the host (R182).

A failed operation answers its error and changes nothing (R183).
No operation touches `draws` but `step`, since the random source is outside MachineState (R180, R199), and none clears
`faults` (60_exceptions.md R219; assumption 3). -/

namespace Sys2Proof.Machine

/-- The error results of host operations (60_exceptions.md R216). They are not faults of the machine. -/
inductive HostError where
  /-- `LoadError{oversized}`, from `load`. -/
  | oversized
  /-- `SizeError`, from `set_input`, `read_frame` and `set_state`. -/
  | size
  deriving DecidableEq, Repr

/-- `init` (R180, 70_reset_and_hazards.md R240): every field of MachineState at its reset value. -/
def initMachine (s : State) : State :=
  { State.reset with result := s.result, faults := s.faults, draws := s.draws }

/-- `load(bytes)` (R184): the image at 0x200 upward, nothing else touched (R185). -/
def load (bytes : List Byte) (s : State) : Except HostError State :=
  if bytes.length > Config.maxRom then .error .oversized
  else .ok { s with mem := s.mem.writeFrom Config.progBase bytes }

/-- The keypad whose key `k` is down iff element `k` of `keys` is true (R187). -/
def keypadOf (keys : List Bool) : BitVec 16 := BitVec.ofBoolListLE keys |>.setWidth 16

/-- `set_input(keys)` (R187): all 16 keys at once. -/
def setInput (keys : List Bool) (s : State) : Except HostError State :=
  if keys.length ≠ 16 then .error .size else .ok { s with key := keypadOf keys }

/-- `ON_SENTINEL`: the frame byte of a lit cell (00_scope.md R7, 92_eei_decisions.md D15). -/
def onSentinel : Byte := 255

/-- The 2048 bytes of a frame (R189): cell `c` is column `c mod 64` of row `c div 64`. -/
def frame (s : State) : List Byte :=
  (List.range Config.frameLen).map fun c =>
    if s.disp.cell (c % Config.dispW) (c / Config.dispW) then onSentinel else 0

/-- `read_frame(buffer)` (R189): what the buffer holds after, or the error with the buffer untouched. -/
def readFrame (buffer : List Byte) (s : State) : Except HostError (List Byte) :=
  if buffer.length ≠ Config.frameLen then .error .size else .ok (frame s)

/-- `set_state(bytes)` (48_state_serializer.md R199): the length is the only check. -/
def setState (bytes : List Byte) (s : State) : Except HostError State :=
  if bytes.length ≠ Config.stateLen then .error .size else .ok (decodeBlob bytes s)

/-- A request of the host (R181). -/
inductive Command where
  | init
  | load (bytes : List Byte)
  | step
  | setInput (keys : List Bool)
  | readFrame (buffer : List Byte)
  | getState
  | setState (bytes : List Byte)
  deriving DecidableEq, Repr

/-- What the host gets back (R181). -/
inductive Reply where
  /-- `Ok`, or success. -/
  | done
  /-- `Fault(cause, info)`, from `step`. -/
  | fault (f : Fault)
  /-- `LoadError` or `SizeError`. -/
  | failed (e : HostError)
  /-- The bytes of `read_frame` or `get_state`. -/
  | bytes (bs : List Byte)
  /-- A step the model gives no meaning; no step answers so. -/
  | refused (r : Refusal)
  deriving DecidableEq, Repr

/-- The reply to an operation that may fail, and the state after it: unchanged on failure (R183). -/
def answer (s : State) : Except HostError State → Reply × State
  | .ok t => (.done, t)
  | .error e => (.failed e, s)

/-- The reply to an operation that reads only. -/
def answerBytes (s : State) : Except HostError (List Byte) → Reply × State
  | .ok bs => (.bytes bs, s)
  | .error e => (.failed e, s)

/-- The reply to a step: its result (40_step_cycle.md R90). -/
def answerStep (s : State) : Host.Outcome State Fault Refusal → Reply × State
  | .next t =>
    match t.result with
    | none => (.done, t)
    | some f => (.fault f, t)
  | .fault f => (.fault f, s)
  | .refused r => (.refused r, s)

/-- One move of the host (R181, R191): the reply and the state after it. -/
def perform (c : Command) (s : State) : Reply × State :=
  match c with
  | .init => (.done, initMachine s)
  | .load bytes => answer s (load bytes s)
  | .step => answerStep s (step s)
  | .setInput keys => answer s (setInput keys s)
  | .readFrame buffer => answerBytes s (readFrame buffer s)
  | .getState => (.bytes (getState s), s)
  | .setState bytes => answer s (setState bytes s)

/-- A host script: its moves in order, and the replies. -/
def performAll : List Command → State → List Reply × State
  | [], s => ([], s)
  | c :: cs, s =>
    let r := perform c s
    let rest := performAll cs r.2
    (r.1 :: rest.1, rest.2)

end Sys2Proof.Machine
end

