-- ==== Sys2Proof/Safety.lean ====
section
/-! DEFINITION. The words claims about runs are made in: no fault so far, the invariants of a run, a halted state. -/

namespace Sys2Proof

open Machine

/-- No step so far has faulted: the premise or conclusion 60_exceptions.md R219 asks of a claim about a run. -/
abbrev Safety.noFault (s : State) : Prop := s.faults = []

/-- The call stack is in its operating range (10_state.md R27). -/
abbrev Safety.stackInRange (s : State) : Prop := s.sp.toNat ≤ 16

/-- What holds in a run from reset in which the host never calls `set_state` (10_state.md R23): `PC` is at most 0x10FE, and no
slot of the stack holds more than 0x1000, the largest return address a CALL can push. -/
abbrev Safety.pcInRange (s : State) : Prop :=
  s.pc.toNat ≤ 0x10FE ∧ ∀ k : Fin 16, s.stack[k].toNat ≤ 0x1000

/-- The state is halted at `a` (92_eei_decisions.md D22): `PC = a` and the instruction there is `JP a`.
The machine does not detect it (40_step_cycle.md R97). -/
abbrev Safety.haltedAt (a : BitVec 12) (s : State) : Prop :=
  s.pc = zextAddr a ∧ a.toNat ≤ 0xFFE ∧ fetch s = .ok (encode (.jpAddr a))

/-- A sprite `bs` with its origin at column `vx`, row `vy` has a set bit over column `px`, row `py` (44_display.md R142): bit 7
of a row is its leftmost pixel (R143). -/
def Safety.spriteLit (bs : List Byte) (vx vy px py : Nat) : Bool :=
  decide (vx ≤ px ∧ px ≤ vx + 7 ∧ vy ≤ py) && (bs.getD (py - vy) 0).getLsbD (7 - (px - vx))

/-- Two states that are the same machine (10_state.md R20): equal in every field of MachineState, whatever the model's own
fields hold. -/
abbrev Safety.sameMachine (s t : State) : Prop :=
  s.mem = t.mem ∧ s.v = t.v ∧ s.i = t.i ∧ s.pc = t.pc ∧ s.stack = t.stack ∧ s.sp = t.sp ∧ s.dt = t.dt ∧ s.st = t.st
    ∧ s.disp = t.disp ∧ s.key = t.key

end Sys2Proof
end

