-- ==== Sys2Proof/Certificates/Slice0/Obligations.lean ====
section
/-! DEFINITION. The statements for the provers, and the words they are made in.

A statement about an instruction says what `exec` does from a state whose `PC` is already past the instruction
(40_step_cycle.md R92); the statements about `step` say what is around it. -/

namespace Sys2Proof.Claims

open Machine Safety

/-! ## Words for frames -/

/-- The parts of the state a frame names. `fault` is the step's result together with the record of faults. -/
inductive Part where
  | mem | v | i | pc | stack | sp | dt | st | disp | key | fault | draws
  deriving DecidableEq, Repr

/-- Every part not in `W` is in `t` as in `s`; memory byte by byte. -/
def unchangedBut (W : List Part) (s t : State) : Prop :=
  (Part.mem ∉ W → ∀ a, t.mem.read a = s.mem.read a) ∧
  (Part.v ∉ W → ∀ r, t.reg r = s.reg r) ∧
  (Part.i ∉ W → t.i = s.i) ∧
  (Part.pc ∉ W → t.pc = s.pc) ∧
  (Part.stack ∉ W → t.stack = s.stack) ∧
  (Part.sp ∉ W → t.sp = s.sp) ∧
  (Part.dt ∉ W → t.dt = s.dt) ∧
  (Part.st ∉ W → t.st = s.st) ∧
  (Part.disp ∉ W → t.disp = s.disp) ∧
  (Part.key ∉ W → t.key = s.key) ∧
  (Part.fault ∉ W → t.result = s.result ∧ t.faults = s.faults) ∧
  (Part.draws ∉ W → t.draws = s.draws)

/-- The instruction faults: the fault is the step's result, it is recorded, and every other part is unchanged. -/
def faultsWith (f : Fault) (s t : State) : Prop :=
  t.result = some f ∧ t.faults = f :: s.faults ∧ unchangedBut [.fault] s t

/-- The parts an instruction may write (the frame rules R113, R131, R137, R145, R158, R172). -/
def footprint : Instr → List Part
  | .cls => [.disp]
  | .ret => [.pc, .sp, .fault]
  | .jpAddr _ => [.pc]
  | .callAddr _ => [.pc, .sp, .stack, .fault]
  | .seByte _ _ => [.pc]
  | .sneByte _ _ => [.pc]
  | .seReg _ _ _ => [.pc]
  | .ldByte _ _ => [.v]
  | .addByte _ _ => [.v]
  | .ldReg _ _ => [.v]
  | .orReg _ _ => [.v]
  | .andReg _ _ => [.v]
  | .xorReg _ _ => [.v]
  | .addReg _ _ => [.v]
  | .subReg _ _ => [.v]
  | .shr _ _ => [.v]
  | .subn _ _ => [.v]
  | .shl _ _ => [.v]
  | .sneReg _ _ _ => [.pc]
  | .ldI _ => [.i]
  | .jpV0 _ => [.pc]
  | .rnd _ _ => [.v, .draws]
  | .drw _ _ _ => [.disp, .v, .fault]
  | .skp _ => [.pc, .fault]
  | .sknp _ => [.pc, .fault]
  | .ldVxDT _ => [.v]
  | .ldVxK _ => [.v, .pc]
  | .ldDTVx _ => [.dt]
  | .ldSTVx _ => [.st]
  | .addI _ => [.i]
  | .ldF _ => [.i]
  | .ldB _ => [.mem, .fault]
  | .storeRegs _ => [.mem, .fault]
  | .loadRegs _ => [.v, .fault]

/-- The instruction writes `VF` as a flag (10_state.md R24). -/
def writesFlag : Instr → Bool
  | .addReg _ _ => true
  | .subReg _ _ => true
  | .subn _ _ => true
  | .shr _ _ => true
  | .shl _ _ => true
  | .drw _ _ _ => true
  | _ => false

/-- The instruction names register `r` as an ordinary destination. -/
def namesDestination (r : Fin 16) : Instr → Bool
  | .ldByte x _ => r == x
  | .addByte x _ => r == x
  | .ldReg x _ => r == x
  | .orReg x _ => r == x
  | .andReg x _ => r == x
  | .xorReg x _ => r == x
  | .addReg x _ => r == x
  | .subReg x _ => r == x
  | .subn x _ => r == x
  | .shr x _ => r == x
  | .shl x _ => r == x
  | .rnd x _ => r == x
  | .ldVxDT x => r == x
  | .ldVxK x => r == x
  | .loadRegs x => decide (r ≤ x)
  | _ => false

/-- The addresses an instruction stores to: `I .. I+2` for LD B, `I .. I+x` for LD [I], none for any other (20_memory.md R55). -/
def storesTo (s : State) (a : Nat) : Instr → Prop
  | .ldB _ => s.i.toNat ≤ a ∧ a ≤ s.i.toNat + 2
  | .storeRegs x => s.i.toNat ≤ a ∧ a ≤ s.i.toNat + x.val
  | _ => False

/-! ## Words for steps -/

/-- The opcode whose bytes lie at `PC`, high byte first (20_memory.md R50). -/
def opcodeAtPC (s : State) : Word := s.mem.read s.pc.toNat ++ s.mem.read (s.pc.toNat + 1)

/-- The next step runs `i`: both bytes at `PC` are in memory and they are an opcode of `i`. -/
def aboutToRun (i : Instr) (s : State) : Prop := s.pc.toNat ≤ 0xFFE ∧ decodeOp (opcodeAtPC s) = .ok i

/-- The one precondition of a decoded instruction (60_exceptions.md R210, R213): the fault if it does not hold. -/
def preconditionFault (i : Instr) (s : State) : Option Fault :=
  match i with
  | .callAddr _ => if 16 ≤ s.sp.toNat then some (.stackOverflow (opcodeAtPC s)) else none
  | .ret => if s.sp.toNat = 0 ∨ 16 < s.sp.toNat then some (.stackUnderflow (opcodeAtPC s)) else none
  | .drw _ _ n => if 0 < n.val ∧ 0xFFF < s.i.toNat + n.val - 1 then some (.addressFault s.i) else none
  | .ldB _ => if 0xFFF < s.i.toNat + 2 then some (.addressFault s.i) else none
  | .storeRegs x => if 0xFFF < s.i.toNat + x.val then some (.addressFault s.i) else none
  | .loadRegs x => if 0xFFF < s.i.toNat + x.val then some (.addressFault s.i) else none
  | .skp x => if 15 < (s.reg x).toNat then some (.keyIndexFault (opcodeAtPC s)) else none
  | .sknp x => if 15 < (s.reg x).toNat then some (.keyIndexFault (opcodeAtPC s)) else none
  | _ => none

/-- The fault the next step ends in, if any: the fetch bound first, then decode, then the precondition (R210, R213). -/
def stepFault (s : State) : Option Fault :=
  if 0xFFE < s.pc.toNat then some (.addressFault s.pc)
  else
    match decodeOp (opcodeAtPC s) with
    | .error _ => some (.decodeError (opcodeAtPC s))
    | .ok i => preconditionFault i s

/-- What the host's `step` replies (40_step_cycle.md R90, 47_host_operations.md R181): `Ok`, or the fault. -/
def stepReply (s : State) : Reply :=
  match stepFault s with
  | none => .done
  | some f => .fault f

/-- The byte at address `a` after LD [I], Vx or LD B, Vx has run without a fault (46_memory_index.md R168, R169): the register
or digit stored there, or the byte as it was. -/
def storedByte (i : Instr) (s : State) (a : Nat) : Byte :=
  match i with
  | .storeRegs x =>
    if s.i.toNat ≤ a ∧ a ≤ s.i.toNat + x.val then s.v.toList.getD (a - s.i.toNat) 0 else s.mem.read a
  | .ldB x =>
    if a = s.i.toNat then BitVec.ofNat 8 ((s.reg x).toNat / 100)
    else if a = s.i.toNat + 1 then BitVec.ofNat 8 ((s.reg x).toNat / 10 % 10)
    else if a = s.i.toNat + 2 then BitVec.ofNat 8 ((s.reg x).toNat % 10)
    else s.mem.read a
  | _ => s.mem.read a

/-- The table of 42_control_flow.md R120: `PC` after a step that runs `i` at address `A = PC` and does not fault. -/
def pcAfter (i : Instr) (s : State) : Nat :=
  let A := s.pc.toNat
  match i with
  | .jpAddr nnn => nnn.toNat
  | .jpV0 nnn => nnn.toNat + (s.reg 0).toNat
  | .callAddr nnn => nnn.toNat
  | .ret => (s.stack.toList.getD (s.sp.toNat - 1) 0).toNat
  | .seByte x kk => if s.reg x = kk then A + 4 else A + 2
  | .sneByte x kk => if s.reg x = kk then A + 2 else A + 4
  | .seReg x y _ => if s.reg x = s.reg y then A + 4 else A + 2
  | .sneReg x y _ => if s.reg x = s.reg y then A + 2 else A + 4
  | .skp x => if s.key.getLsbD (s.reg x).toNat then A + 4 else A + 2
  | .sknp x => if s.key.getLsbD (s.reg x).toNat then A + 2 else A + 4
  | .ldVxK _ => if s.key = 0 then A else A + 2
  | _ => A + 2

/-- A flag's value as a number. -/
def bit (p : Prop) [Decidable p] : Nat := if p then 1 else 0

end Sys2Proof.Claims

open Sys2Proof Sys2Proof.Machine Sys2Proof.Safety Sys2Proof.Claims

/-! ## Encoding (30_encoding.md) -/

/-- Decoding the opcode of any instruction gives it back: no operand, at any value its field admits, is lost. -/
def Obligations.DecodeOfEncode : Prop := ∀ i : Instr, decodeOp (encode i) = .ok i

/-- Every defined opcode is the opcode of the instruction it decodes to.
That also the bits the decoder does not examine come back (`y` of SHR and SHL, the low nibble of 5xy? and 9xy?) is the model's
choice to keep them in `Instr`: assumption 5. -/
def Obligations.EncodeOfDecode : Prop := ∀ (op : Word) (i : Instr), decodeOp op = .ok i → encode i = op

/-- The opcode map read as masks and matches: an opcode is defined iff a row selects it, the row is the decoded instruction's,
and no opcode selects two rows. -/
def Obligations.DecodeFollowsOpcodeMap : Prop :=
  ∀ op : Word,
    ((∃ i, decodeOp op = .ok i) ↔ ∃ r ∈ opcodeTable, r.selects op = true) ∧
    (∀ i, decodeOp op = .ok i → rowOf i ∈ opcodeTable ∧ (rowOf i).selects op = true) ∧
    (∀ r ∈ opcodeTable, ∀ r' ∈ opcodeTable, r.selects op = true → r'.selects op = true → r = r')

/-- The undefined opcodes are exactly those of the table of section 4 (SYS addr among them), in groups 0, 8, E and F. -/
def Obligations.UndefinedOpcodesExactly : Prop :=
  ∀ op : Word,
    (∃ r, decodeOp op = .error r) ↔
      (op.toNat / 4096 = 0x0 ∧ op.toNat ≠ 0x00E0 ∧ op.toNat ≠ 0x00EE) ∨
      (op.toNat / 4096 = 0x8 ∧ op.toNat % 16 ∈ [0x8, 0x9, 0xA, 0xB, 0xC, 0xD, 0xF]) ∨
      (op.toNat / 4096 = 0xE ∧ op.toNat % 256 ∉ [0x9E, 0xA1]) ∨
      (op.toNat / 4096 = 0xF ∧ op.toNat % 256 ∉ [0x07, 0x0A, 0x15, 0x18, 0x1E, 0x29, 0x33, 0x55, 0x65])

/-- A few opcodes written out from the map, one a family, and what they decode to. -/
def Obligations.SampleOpcodesDecode : Prop :=
  decodeOp 0x00E0 = .ok .cls ∧ decodeOp 0x00EE = .ok .ret ∧ decodeOp 0x8126 = .ok (.shr 1 2) ∧
  decodeOp 0xC30F = .ok (.rnd 3 0x0F) ∧ decodeOp 0xD125 = .ok (.drw 1 2 5) ∧ decodeOp 0xE09E = .ok (.skp 0) ∧
  decodeOp 0xF165 = .ok (.loadRegs 1) ∧ decodeOp 0x0000 = .error .undefinedGroup0

/-! ## The step (40_step_cycle.md, 60_exceptions.md) -/

/-- A step whose two bytes at `PC`, the high byte first (R50), decode to `i` is `exec i` from the state with `PC` two further
and the result cleared, followed by the tick of both timers unless the instruction faulted (that it then is skipped is the
spec's decision D11). -/
def Obligations.StepRunsDecodedInstruction : Prop :=
  ∀ (s : State) (i : Instr), s.pc.toNat ≤ 0xFFE →
    decodeOp (s.mem.read s.pc.toNat ++ s.mem.read (s.pc.toNat + 1)) = .ok i →
    step s =
      match exec i { s with pc := s.pc + 2, result := none } with
      | .next t =>
        if t.result = none then .next { t with dt := countDown t.dt, st := countDown t.st } else .next t
      | .fault f => .fault f
      | .refused r => .refused r

/-- DecodeError is raised by every undefined opcode and by nothing else; `PC` is then past the opcode and no V register, `I`,
`SP`, stack slot, memory byte, cell or key has changed. The timers are left to FaultingStepChangesOnlyPc, since that they do not
tick then is the spec's decision D11. -/
def Obligations.DecodeErrorOnUndefinedOpcodes : Prop :=
  ∀ s : State, ∃ t, step s = .next t ∧
    ∀ op, (t.result = some (.decodeError op) ↔
        s.pc.toNat ≤ 0xFFE ∧ op = opcodeAtPC s ∧ ∃ r, decodeOp op = .error r) ∧
      (t.result = some (.decodeError op) →
        t.pc.toNat = s.pc.toNat + 2 ∧ unchangedBut [.pc, .fault, .dt, .st] s t)

/-- Every step that does not fault ends with both timers one lower than the instruction left them, floored at 0, and with
everything else as the instruction left it. -/
def Obligations.TimersTickOncePerStep : Prop :=
  ∀ s t : State, step s = .next t → t.result = none →
    ∃ i u, aboutToRun i s ∧ exec i (advance s) = .next u ∧ t.dt.toNat = u.dt.toNat - 1 ∧ t.st.toNat = u.st.toNat - 1 ∧
      unchangedBut [.dt, .st] u t

/-- The state a faulting step leaves: a fetch fault changes nothing, any other fault only takes `PC` past the instruction; the
timers do not tick and nothing is half done.
That the tick is skipped (D11) and that all faults are all-or-nothing (D19) are the spec's own decisions. -/
def Obligations.FaultingStepChangesOnlyPc : Prop :=
  ∀ (s t : State) (f : Fault), step s = .next t → t.result = some f →
    t.faults = f :: s.faults ∧
    (0xFFE < s.pc.toNat → t.pc = s.pc) ∧ (s.pc.toNat ≤ 0xFFE → t.pc.toNat = s.pc.toNat + 2) ∧
    unchangedBut [.pc, .fault] s t

/-- Which fault a step ends in, with its `info`, for every state: the five causes under their conditions in their order, and
no fault in any other case. The host's `step` replies that fault, or `Ok`, and leaves the same state; the causes have the codes
1 to 5 and the `info` they carry.
The order of the checks (D19), the bounds (D5, D6, D7), the codes and the `info` values (D14) are the spec's own decisions. -/
def Obligations.FaultCausesExactly : Prop :=
  (∀ s t : State, step s = .next t → t.result = stepFault s ∧ perform .step s = (stepReply s, t)) ∧
  (∀ w : Word,
    (Fault.decodeError w).code = 1 ∧ (Fault.stackOverflow w).code = 2 ∧ (Fault.stackUnderflow w).code = 3 ∧
    (Fault.addressFault w).code = 4 ∧ (Fault.keyIndexFault w).code = 5 ∧
    (Fault.decodeError w).info = w ∧ (Fault.stackOverflow w).info = w ∧ (Fault.stackUnderflow w).info = w ∧
    (Fault.addressFault w).info = w ∧ (Fault.keyIndexFault w).info = w)

/-- The machine never stops: every state, also one a fault has left, has a next state (D21). -/
def Obligations.EveryStepAnswers : Prop := ∀ s : State, ∃ t, step s = .next t

/-- The record of faults is never cleared: a step keeps it or puts its own fault in front, and then says so in its result; no
other operation of the host touches it (D21; assumptions 2 and 3). -/
def Obligations.FaultRecordIsSticky : Prop :=
  (∀ s t : State, step s = .next t →
    t.result = none ∧ t.faults = s.faults ∨ ∃ f, t.result = some f ∧ t.faults = f :: s.faults) ∧
  (∀ (c : Command) (s : State), c ≠ .step → (perform c s).2.faults = s.faults)

/-- `PC` after a step, for every instruction and every fault, and what CALL pushes: the table of R120. -/
def Obligations.PcAfterEveryStep : Prop :=
  ∀ s t : State, step s = .next t →
    (0xFFE < s.pc.toNat → t.pc = s.pc) ∧
    (s.pc.toNat ≤ 0xFFE → (∃ f, t.result = some f) → t.pc.toNat = s.pc.toNat + 2) ∧
    (∀ i, aboutToRun i s → t.result = none → t.pc.toNat = pcAfter i s) ∧
    (∀ nnn, aboutToRun (.callAddr nnn) s → t.result = none →
      (t.stack.toList.getD s.sp.toNat 0).toNat = s.pc.toNat + 2)

/-! ## Reset and invariants -/

/-- `init`, from any state, succeeds and leaves every field of the table of R40: the font and zeros in memory, `PC` at 0x200,
everything else zero; it does not touch the random source. `State.reset` is such a state. The font bytes themselves are the
spec's general knowledge GK6. -/
def Obligations.InitLeavesResetValues : Prop :=
  ∀ s t : State, t = State.reset ∨ t = (perform .init s).2 →
    (∀ a, a < 80 → t.mem.read a = font.getD a 0) ∧ (∀ a, 80 ≤ a → a < 4096 → t.mem.read a = 0) ∧
    (∀ r, t.reg r = 0) ∧ t.i = 0 ∧ t.pc = 0x200 ∧ (∀ k : Fin 16, t.stack[k] = 0) ∧ t.sp = 0 ∧ t.dt = 0 ∧ t.st = 0 ∧
    (∀ px py, px < 64 → py < 32 → t.disp.cell px py = false) ∧ (∀ k, k < 16 → t.key.getLsbD k = false) ∧
    (perform .init s).1 = .done ∧ (perform .init s).2.draws = s.draws

/-- The reset machine with no image: 1792 steps each raise DecodeError on 0x0000, two bytes further on each time, and from
then on every step raises AddressFault at 0x1000; nothing but `PC` moves.
It is about one state; it rests on the spec's decisions D12 (0x0000 is undefined), D6 (the fetch bound) and D11 (no tick). -/
def Obligations.EmptyMachineRun : Prop :=
  (∀ k, k ≤ 1792 → ∃ t, Sys2Proof.core.run k State.reset = .next t ∧ t.pc.toNat = 0x200 + 2 * k ∧
    t.faults = List.replicate k (.decodeError 0) ∧ unchangedBut [.pc, .fault] State.reset t) ∧
  (∀ k, ∃ t, Sys2Proof.core.run (1792 + k) State.reset = .next t ∧ t.pc.toNat = 0x1000 ∧
    t.faults = List.replicate k (.addressFault 0x1000) ++ List.replicate 1792 (.decodeError 0) ∧
    unchangedBut [.pc, .fault] State.reset t)

/-- Every step keeps memory in its canonical form. -/
def Obligations.StepKeepsMemoryCanonical : Prop :=
  ∀ s t : State, s.mem.wf → step s = .next t → t.mem.wf

/-- Every operation of the host keeps memory in its canonical form. -/
def Obligations.HostOperationsKeepMemoryCanonical : Prop :=
  ∀ (c : Command) (s : State), s.mem.wf → (perform c s).2.mem.wf

/-- Memories in canonical form that read alike are the same data. -/
def Obligations.CanonicalMemoriesReadingAlikeAreEqual : Prop :=
  ∀ m m' : Memory, m.wf → m'.wf → (∀ a, a < 4096 → m.read a = m'.read a) → m = m'

/-- Every step keeps the stack pointer in its operating range 0..16. -/
def Obligations.StepKeepsStackInRange : Prop :=
  ∀ s t : State, stackInRange s → step s = .next t → stackInRange t

/-- Without `set_state` no run takes `PC` above 0x10FE: `PC` at most 0x10FE with every stack slot at most 0x1000 is kept by
every step, and by every operation of the host but `set_state`. -/
def Obligations.PcStaysInRangeWithoutSetState : Prop :=
  (∀ s t : State, pcInRange s → step s = .next t → pcInRange t) ∧
  (∀ (c : Command) (s : State), (∀ bytes, c ≠ .setState bytes) → pcInRange s → pcInRange (perform c s).2)

/-- The state after reset meets the invariants: canonical memory, stack and `PC` in range, no fault recorded. -/
def Obligations.ResetMeetsInvariants : Prop :=
  State.reset.mem.wf ∧ stackInRange State.reset ∧ pcInRange State.reset ∧ noFault State.reset

/-! ## Whole-machine rules -/

/-- What every instruction may write, and nothing else: its parts of the state, its registers, its bytes of memory. -/
def Obligations.FrameOfEveryInstruction : Prop :=
  ∀ (i : Instr) (s t : State), exec i s = .next t →
    unchangedBut (footprint i) s t ∧
    (∀ r, namesDestination r i = false → ¬(r = 15 ∧ writesFlag i = true) → t.reg r = s.reg r) ∧
    (∀ a, ¬storesTo s a i → t.mem.read a = s.mem.read a)

/-- The keypad is written by the host alone: no instruction and no step changes it, nor does `load`, `read_frame` or
`get_state`; only SKP, SKNP and LD Vx, K depend on it; it is clear after reset. -/
def Obligations.KeypadIsReadOnlyToInstructions : Prop :=
  (∀ (i : Instr) (s t : State), exec i s = .next t → t.key = s.key) ∧
  (∀ s t : State, step s = .next t → t.key = s.key) ∧
  (∀ (c : Command) (s : State), (perform c s).2.key ≠ s.key →
    c = .init ∨ (∃ keys, c = .setInput keys) ∨ ∃ bytes, c = .setState bytes) ∧
  (∀ (i : Instr) (s t : State) (k : BitVec 16), (∀ x, i ≠ .skp x ∧ i ≠ .sknp x ∧ i ≠ .ldVxK x) → exec i s = .next t →
    exec i { s with key := k } = .next { t with key := k }) ∧
  (∀ k, k < 16 → State.reset.key.getLsbD k = false)

/-- Exactly six instructions write `VF` as a flag, and leave it 0 or 1 unless they fault; any other leaves it alone unless it
names it as its destination. -/
def Obligations.SixInstructionsWriteTheFlag : Prop :=
  ∀ (i : Instr) (s t : State), exec i s = .next t →
    (writesFlag i = true → t.faults = s.faults → t.reg 15 = 0 ∨ t.reg 15 = 1) ∧
    (writesFlag i = false → namesDestination 15 i = false → t.reg 15 = s.reg 15)

/-- RND is the only instruction whose result depends on anything but MachineState: equal machines step to equal machines with
equal results, whatever the model's own fields and the random bytes, and where RND runs they differ in its destination at most.
That the byte is a free input is the spec's decision D9; how the model numbers the draws is assumption 1. -/
def Obligations.OnlyRandomDependsOnTheEnvironment : Prop :=
  ∀ s s' t t' : State, sameMachine s s' → step s = .next t → step s' = .next t' →
    t.result = t'.result ∧
    ((∀ x kk, ¬aboutToRun (.rnd x kk) s) → sameMachine t t') ∧
    (∀ x kk, aboutToRun (.rnd x kk) s → sameMachine { t with v := t'.v } t' ∧ ∀ r, r ≠ x → t.reg r = t'.reg r)

/-! ## Arithmetic and logic (41_arithmetic_logic.md) -/

/-- LD Vx, byte; ADD Vx, byte (modulo 256, no flag); LD Vx, Vy.
Their meaning is the spec's general knowledge GK4. -/
def Obligations.ImmediateAndCopyInstructions : Prop :=
  ∀ (x y : Fin 16) (kk : Byte) (s : State),
    (∃ t, exec (.ldByte x kk) s = .next t ∧ t.reg x = kk ∧ (∀ r, r ≠ x → t.reg r = s.reg r) ∧ unchangedBut [.v] s t) ∧
    (∃ t, exec (.addByte x kk) s = .next t ∧ (t.reg x).toNat = ((s.reg x).toNat + kk.toNat) % 256 ∧
      (∀ r, r ≠ x → t.reg r = s.reg r) ∧ unchangedBut [.v] s t) ∧
    (∃ t, exec (.ldReg x y) s = .next t ∧ t.reg x = s.reg y ∧ (∀ r, r ≠ x → t.reg r = s.reg r) ∧ unchangedBut [.v] s t)

/-- OR, AND, XOR, bit by bit; `VF` is not touched unless it is the destination (the spec's decision D3). -/
def Obligations.LogicInstructions : Prop :=
  ∀ (x y : Fin 16) (s : State),
    (∃ t, exec (.orReg x y) s = .next t ∧
      (∀ j, j < 8 → (t.reg x).getLsbD j = ((s.reg x).getLsbD j || (s.reg y).getLsbD j)) ∧
      (∀ r, r ≠ x → t.reg r = s.reg r) ∧ unchangedBut [.v] s t) ∧
    (∃ t, exec (.andReg x y) s = .next t ∧
      (∀ j, j < 8 → (t.reg x).getLsbD j = ((s.reg x).getLsbD j && (s.reg y).getLsbD j)) ∧
      (∀ r, r ≠ x → t.reg r = s.reg r) ∧ unchangedBut [.v] s t) ∧
    (∃ t, exec (.xorReg x y) s = .next t ∧
      (∀ j, j < 8 → (t.reg x).getLsbD j = ((s.reg x).getLsbD j ^^ (s.reg y).getLsbD j)) ∧
      (∀ r, r ≠ x → t.reg r = s.reg r) ∧ unchangedBut [.v] s t)

/-- ADD Vx, Vy: the sum modulo 256 in `V[x]`, the carry in `VF`; with `x = F` the flag is what stays (decision D1). -/
def Obligations.AddSetsCarry : Prop :=
  ∀ (x y : Fin 16) (s : State), ∃ t, exec (.addReg x y) s = .next t ∧
    (x ≠ 15 → (t.reg x).toNat = ((s.reg x).toNat + (s.reg y).toNat) % 256) ∧
    (t.reg 15).toNat = bit ((s.reg x).toNat + (s.reg y).toNat > 255) ∧
    (∀ r, r ≠ x → r ≠ 15 → t.reg r = s.reg r) ∧ unchangedBut [.v] s t

/-- SUB and SUBN: the difference modulo 256 in `V[x]`, and in `VF` whether it was strictly positive; with `x = F` the flag is
what stays (decision D1). -/
def Obligations.SubtractionsSetStrictGreater : Prop :=
  ∀ (x y : Fin 16) (s : State),
    (∃ t, exec (.subReg x y) s = .next t ∧
      (x ≠ 15 → (t.reg x).toNat = ((s.reg x).toNat + 256 - (s.reg y).toNat) % 256) ∧
      (t.reg 15).toNat = bit ((s.reg y).toNat < (s.reg x).toNat) ∧
      (∀ r, r ≠ x → r ≠ 15 → t.reg r = s.reg r) ∧ unchangedBut [.v] s t) ∧
    (∃ t, exec (.subn x y) s = .next t ∧
      (x ≠ 15 → (t.reg x).toNat = ((s.reg y).toNat + 256 - (s.reg x).toNat) % 256) ∧
      (t.reg 15).toNat = bit ((s.reg x).toNat < (s.reg y).toNat) ∧
      (∀ r, r ≠ x → r ≠ 15 → t.reg r = s.reg r) ∧ unchangedBut [.v] s t)

/-- SHR and SHL: `Vx` itself by one, the bit shifted out in `VF`, whatever `y` (decision D2); with `x = F` the flag is what
stays (decision D1). -/
def Obligations.ShiftsByOne : Prop :=
  ∀ (x y : Fin 16) (s : State),
    (∃ t, exec (.shr x y) s = .next t ∧ (x ≠ 15 → (t.reg x).toNat = (s.reg x).toNat / 2) ∧
      (t.reg 15).toNat = (s.reg x).toNat % 2 ∧
      (∀ r, r ≠ x → r ≠ 15 → t.reg r = s.reg r) ∧ unchangedBut [.v] s t) ∧
    (∃ t, exec (.shl x y) s = .next t ∧ (x ≠ 15 → (t.reg x).toNat = (s.reg x).toNat * 2 % 256) ∧
      (t.reg 15).toNat = (s.reg x).toNat / 128 ∧
      (∀ r, r ≠ x → r ≠ 15 → t.reg r = s.reg r) ∧ unchangedBut [.v] s t)

/-! ## Control flow (42_control_flow.md) -/

/-- JP addr: opcode 1nnn, `PC` becomes `nnn` whatever it is, and nothing else changes. -/
def Obligations.JumpSetsPc : Prop :=
  ∀ (nnn : BitVec 12) (s : State),
    decodeOp (0x1#4 ++ nnn) = .ok (.jpAddr nnn) ∧
    ∃ t, exec (.jpAddr nnn) s = .next t ∧ t.pc.toNat = nnn.toNat ∧ unchangedBut [.pc] s t

/-- JP V0, addr: `PC` becomes `nnn + V0`, a sum that never overflows. Its meaning is the spec's general knowledge GK4. -/
def Obligations.JumpWithOffset : Prop :=
  ∀ (nnn : BitVec 12) (s : State), ∃ t, exec (.jpV0 nnn) s = .next t ∧
    t.pc.toNat = nnn.toNat + (s.reg 0).toNat ∧ unchangedBut [.pc] s t

/-- CALL addr: with a free slot the advanced `PC` goes into it and `SP` counts it; with none it is the overflow fault, with
the opcode as `info` and nothing written (decision D5). -/
def Obligations.CallPushesReturnAddress : Prop :=
  ∀ (nnn : BitVec 12) (s : State),
    (∀ h : s.sp.toNat < 16, ∃ t, exec (.callAddr nnn) s = .next t ∧ t.stack[s.sp.toNat] = s.pc ∧
      t.sp.toNat = s.sp.toNat + 1 ∧ t.pc.toNat = nnn.toNat ∧
      (∀ k : Fin 16, k.val ≠ s.sp.toNat → t.stack[k] = s.stack[k]) ∧ unchangedBut [.pc, .sp, .stack] s t) ∧
    (16 ≤ s.sp.toNat → ∃ t, exec (.callAddr nnn) s = .next t ∧ faultsWith (.stackOverflow (0x2#4 ++ nnn)) s t)

/-- RET: with `SP` in 1..16 the top slot goes to `PC` and keeps its value; otherwise it is the underflow fault with nothing
written (decision D5). -/
def Obligations.ReturnPopsReturnAddress : Prop :=
  ∀ s : State,
    (∀ h : 1 ≤ s.sp.toNat ∧ s.sp.toNat ≤ 16, ∃ t, exec .ret s = .next t ∧ t.pc = s.stack[s.sp.toNat - 1] ∧
      t.sp.toNat = s.sp.toNat - 1 ∧ unchangedBut [.pc, .sp] s t) ∧
    (s.sp.toNat = 0 ∨ 16 < s.sp.toNat → ∃ t, exec .ret s = .next t ∧ faultsWith (.stackUnderflow 0x00EE) s t)

/-- A CALL with a free slot and then a RET, from whatever the subroutine made of the rest of the state, come back to the
instruction after the CALL with the stack pointer as before. -/
def Obligations.ReturnUndoesCall : Prop :=
  ∀ (nnn : BitVec 12) (s : State), s.sp.toNat < 16 →
    ∃ t, exec (.callAddr nnn) s = .next t ∧
      ∀ u : State, u.stack = t.stack → u.sp = t.sp → ∃ w, exec .ret u = .next w ∧ w.pc = s.pc ∧ w.sp = s.sp

/-- The four skips: `PC` two further iff the comparison holds, and nothing else; the low nibble of 5xy? and 9xy? plays no part
(decision D13). That SE skips on equal and SNE on unequal is general knowledge GK8. -/
def Obligations.SkipsOnComparison : Prop :=
  ∀ (x y : Fin 16) (kk : Byte) (low : BitVec 4) (s : State),
    (∃ t, exec (.seByte x kk) s = .next t ∧ t.pc = (if s.reg x = kk then s.pc + 2 else s.pc) ∧ unchangedBut [.pc] s t) ∧
    (∃ t, exec (.sneByte x kk) s = .next t ∧ t.pc = (if s.reg x = kk then s.pc else s.pc + 2) ∧ unchangedBut [.pc] s t) ∧
    (∃ t, exec (.seReg x y low) s = .next t ∧ t.pc = (if s.reg x = s.reg y then s.pc + 2 else s.pc) ∧
      unchangedBut [.pc] s t) ∧
    (∃ t, exec (.sneReg x y low) s = .next t ∧ t.pc = (if s.reg x = s.reg y then s.pc else s.pc + 2) ∧
      unchangedBut [.pc] s t)

/-! ## Random (43_random.md) -/

/-- RND Vx, byte: `V[x]` is the environment's byte ANDed with the mask, so it has no bit the mask lacks, and nothing else in
the machine changes. The byte is a free value: assumption 1 (the spec's decision D9). -/
def Obligations.RandomIsMasked : Prop :=
  ∀ (x : Fin 16) (kk : Byte) (s : State), ∃ t, exec (.rnd x kk) s = .next t ∧
    t.reg x = Config.draw s.draws &&& kk ∧ (∀ j, kk.getLsbD j = false → (t.reg x).getLsbD j = false) ∧
    t.draws = s.draws + 1 ∧ (∀ r, r ≠ x → t.reg r = s.reg r) ∧ unchangedBut [.v, .draws] s t

/-! ## Display (44_display.md) -/

/-- CLS: opcode 00E0, every cell off whatever was drawn, so that a frame read gives 2048 zero bytes; nothing else changes. -/
def Obligations.ClearDisplay : Prop :=
  decodeOp 0x00E0 = .ok .cls ∧
  ∀ s : State, ∃ t, exec .cls s = .next t ∧ (∀ px py, px < 64 → py < 32 → t.disp.cell px py = false) ∧
    (∀ buffer : List Byte, buffer.length = 2048 →
      ∃ bs, readFrame buffer t = .ok bs ∧ bs.length = 2048 ∧ ∀ b ∈ bs, b = 0) ∧
    unchangedBut [.disp] s t

/-- DRW Vx, Vy, n: if the `n` sprite bytes at `I` lie in memory, exactly the cells of the grid under a set bit of the sprite
are flipped, `VF` says whether one of them was lit, and nothing else changes; otherwise it is the address fault and nothing
changes. Bit 7 of a row is its leftmost pixel (general knowledge GK3); the origin is not reduced (decision D10). -/
def Obligations.DrawXorsSprite : Prop :=
  ∀ (x y n : Fin 16) (s : State),
    (n.val = 0 ∨ s.i.toNat + n.val - 1 ≤ 0xFFF →
      ∃ t, exec (.drw x y n) s = .next t ∧
        (∀ px py, px ≤ 63 → py ≤ 31 → t.disp.cell px py =
          (s.disp.cell px py ^^ spriteLit (s.mem.readFrom s.i.toNat n.val) (s.reg x).toNat (s.reg y).toNat px py)) ∧
        (t.reg 15 = 0 ∨ t.reg 15 = 1) ∧
        (t.reg 15 = 1 ↔ ∃ px py, px ≤ 63 ∧ py ≤ 31 ∧ s.disp.cell px py = true ∧ t.disp.cell px py = false) ∧
        (∀ r, r ≠ 15 → t.reg r = s.reg r) ∧ unchangedBut [.disp, .v] s t) ∧
    (0 < n.val ∧ 0xFFF < s.i.toNat + n.val - 1 →
      ∃ t, exec (.drw x y n) s = .next t ∧ faultsWith (.addressFault s.i) s t)

/-- Drawing the same sprite twice at the same place restores the grid. The second drawing reports a collision iff some visible
pixel of the sprite was unlit at first; where the first drawing met no lit cell, that is iff the sprite has a visible pixel.
R144 words the last clause without its condition, and that it holds under the condition is the model's reading by R142:
assumption 14. `VF` is no coordinate here, since the first drawing overwrites it and the place would change; one drawing with
such a coordinate is in DrawXorsSprite. -/
def Obligations.DrawTwiceRestoresGrid : Prop :=
  ∀ (x y n : Fin 16) (s : State), x ≠ 15 → y ≠ 15 → (n.val = 0 ∨ s.i.toNat + n.val - 1 ≤ 0xFFF) →
    ∃ t u, exec (.drw x y n) s = .next t ∧ exec (.drw x y n) t = .next u ∧ u.disp = s.disp ∧
      (u.reg 15 = 1 ↔ ∃ px py, px ≤ 63 ∧ py ≤ 31 ∧ s.disp.cell px py = false ∧
        spriteLit (s.mem.readFrom s.i.toNat n.val) (s.reg x).toNat (s.reg y).toNat px py = true) ∧
      (t.reg 15 = 0 → (u.reg 15 = 1 ↔ ∃ px py, px ≤ 63 ∧ py ≤ 31 ∧
        spriteLit (s.mem.readFrom s.i.toNat n.val) (s.reg x).toNat (s.reg y).toNat px py = true))

/-! ## Timers and keypad (45_timers_input.md) -/

/-- LD Vx, DT: `V[x]` gets `DT` as it was before this step's tick, and the step ends with `DT` one lower, floored at 0. -/
def Obligations.ReadDelayTimer : Prop :=
  ∀ (x : Fin 16) (s : State),
    decodeOp (0xF#4 ++ nibble x ++ 0x07#8) = .ok (.ldVxDT x) ∧
    (∃ t, exec (.ldVxDT x) s = .next t ∧ t.reg x = s.dt ∧ (∀ r, r ≠ x → t.reg r = s.reg r) ∧ unchangedBut [.v] s t) ∧
    (aboutToRun (.ldVxDT x) s → ∃ t, step s = .next t ∧ t.result = none ∧ t.reg x = s.dt ∧ t.dt.toNat = s.dt.toNat - 1)

/-- LD DT, Vx and LD ST, Vx: the timer gets `Vx`, and the tick of the same step takes one off, floored at 0. No instruction
reads `ST`: with another value there, the same happens but for `ST` itself; and the host's frame does not show it. -/
def Obligations.SetTimers : Prop :=
  ∀ (x : Fin 16) (s : State),
    decodeOp (0xF#4 ++ nibble x ++ 0x15#8) = .ok (.ldDTVx x) ∧
    decodeOp (0xF#4 ++ nibble x ++ 0x18#8) = .ok (.ldSTVx x) ∧
    (∃ t, exec (.ldDTVx x) s = .next t ∧ t.dt = s.reg x ∧ unchangedBut [.dt] s t) ∧
    (∃ t, exec (.ldSTVx x) s = .next t ∧ t.st = s.reg x ∧ unchangedBut [.st] s t) ∧
    (aboutToRun (.ldDTVx x) s → ∃ t, step s = .next t ∧ t.result = none ∧ t.dt.toNat = (s.reg x).toNat - 1) ∧
    (aboutToRun (.ldSTVx x) s → ∃ t, step s = .next t ∧ t.result = none ∧ t.st.toNat = (s.reg x).toNat - 1) ∧
    (∀ (i : Instr) (t : State) (b : Byte), exec i s = .next t → ∃ u, exec i { s with st := b } = .next u ∧
      { u with st := t.st } = t) ∧
    (∀ (buffer : List Byte) (b : Byte), readFrame buffer { s with st := b } = readFrame buffer s)

/-- SKP and SKNP: for a key number `PC` goes two further iff the key is down, or up; a number above 15 is the key index fault
with the opcode as `info` (decision D7). -/
def Obligations.SkipsOnKey : Prop :=
  ∀ (x : Fin 16) (s : State),
    ((s.reg x).toNat ≤ 15 →
      (∃ t, exec (.skp x) s = .next t ∧
        t.pc = (if s.key.getLsbD (s.reg x).toNat then s.pc + 2 else s.pc) ∧ unchangedBut [.pc] s t) ∧
      (∃ t, exec (.sknp x) s = .next t ∧
        t.pc = (if s.key.getLsbD (s.reg x).toNat then s.pc else s.pc + 2) ∧ unchangedBut [.pc] s t)) ∧
    (15 < (s.reg x).toNat →
      (∃ t, exec (.skp x) s = .next t ∧ faultsWith (.keyIndexFault (0xE#4 ++ nibble x ++ 0x9E#8)) s t) ∧
      (∃ t, exec (.sknp x) s = .next t ∧ faultsWith (.keyIndexFault (0xE#4 ++ nibble x ++ 0xA1#8)) s t))

/-- LD Vx, K: with a key down the least such key's number goes to `V[x]`; with none the step is complete, ticks the timers and
leaves `PC` on the instruction. That the number is stored is general knowledge GK8, that it is the least decision D8. -/
def Obligations.WaitForKey : Prop :=
  ∀ (x : Fin 16) (s : State),
    (∀ k, k < 16 → s.key.getLsbD k = true → (∀ j, j < k → s.key.getLsbD j = false) →
      ∃ t, exec (.ldVxK x) s = .next t ∧ (t.reg x).toNat = k ∧ (∀ r, r ≠ x → t.reg r = s.reg r) ∧
        unchangedBut [.v] s t) ∧
    ((∀ k, k < 16 → s.key.getLsbD k = false) →
      (∃ t, exec (.ldVxK x) s = .next t ∧ t.pc = s.pc - 2 ∧ unchangedBut [.pc] s t) ∧
      (aboutToRun (.ldVxK x) s → ∃ t, step s = .next t ∧ t.result = none ∧ t.pc = s.pc ∧ t.dt.toNat = s.dt.toNat - 1 ∧
        t.st.toNat = s.st.toNat - 1 ∧ unchangedBut [.dt, .st, .fault] s t))

/-! ## Index register and memory (46_memory_index.md) -/

/-- LD I, addr; ADD I, Vx (modulo 65536, no flag, decision D20); LD F, Vx (five times the whole of `Vx`).
The meaning of the first two is general knowledge GK4. -/
def Obligations.IndexInstructions : Prop :=
  ∀ (x : Fin 16) (nnn : BitVec 12) (s : State),
    (∃ t, exec (.ldI nnn) s = .next t ∧ t.i.toNat = nnn.toNat ∧ unchangedBut [.i] s t) ∧
    (∃ t, exec (.addI x) s = .next t ∧ t.i.toNat = (s.i.toNat + (s.reg x).toNat) % 65536 ∧ unchangedBut [.i] s t) ∧
    (∃ t, exec (.ldF x) s = .next t ∧ t.i.toNat = (s.reg x).toNat * 5 ∧ unchangedBut [.i] s t)

/-- LD B, Vx: the three decimal digits at `I`, `I+1`, `I+2`, hundreds first (general knowledge GK5), and no other byte
changes; if they do not lie in memory it is the address fault and none is written (decision D6). -/
def Obligations.StoreDecimalDigits : Prop :=
  ∀ (x : Fin 16) (s : State), s.mem.wf →
    (s.i.toNat + 2 ≤ 0xFFF →
      ∃ t, exec (.ldB x) s = .next t ∧ (t.mem.read s.i.toNat).toNat = (s.reg x).toNat / 100 ∧
        (t.mem.read (s.i.toNat + 1)).toNat = (s.reg x).toNat / 10 % 10 ∧
        (t.mem.read (s.i.toNat + 2)).toNat = (s.reg x).toNat % 10 ∧
        (∀ a, a < s.i.toNat ∨ s.i.toNat + 2 < a → t.mem.read a = s.mem.read a) ∧ unchangedBut [.mem] s t) ∧
    (0xFFF < s.i.toNat + 2 → ∃ t, exec (.ldB x) s = .next t ∧ faultsWith (.addressFault s.i) s t)

/-- LD [I], Vx: `V0..Vx` at `I..I+x`, and no other byte changes, `I` neither (decision D4); if they do not lie in memory it is
the address fault and none is written (decision D6). -/
def Obligations.StoreRegisters : Prop :=
  ∀ (x : Fin 16) (s : State), s.mem.wf →
    (s.i.toNat + x.val ≤ 0xFFF →
      ∃ t, exec (.storeRegs x) s = .next t ∧ (∀ k : Fin 16, k ≤ x → t.mem.read (s.i.toNat + k.val) = s.reg k) ∧
        (∀ a, a < s.i.toNat ∨ s.i.toNat + x.val < a → t.mem.read a = s.mem.read a) ∧ unchangedBut [.mem] s t) ∧
    (0xFFF < s.i.toNat + x.val → ∃ t, exec (.storeRegs x) s = .next t ∧ faultsWith (.addressFault s.i) s t)

/-- LD Vx, [I]: `V0..Vx` from `I..I+x`, the registers above `x` unchanged, `I` too (decision D4); if the bytes do not lie in
memory it is the address fault and no register is loaded (decision D6). -/
def Obligations.LoadRegisters : Prop :=
  ∀ (x : Fin 16) (s : State),
    (s.i.toNat + x.val ≤ 0xFFF →
      ∃ t, exec (.loadRegs x) s = .next t ∧ (∀ k : Fin 16, k ≤ x → t.reg k = s.mem.read (s.i.toNat + k.val)) ∧
        (∀ k : Fin 16, x < k → t.reg k = s.reg k) ∧ unchangedBut [.v] s t) ∧
    (0xFFF < s.i.toNat + x.val → ∃ t, exec (.loadRegs x) s = .next t ∧ faultsWith (.addressFault s.i) s t)

/-- Registers stored with LD [I], Vx come back with LD Vx, [I], whatever has become of the registers in between. -/
def Obligations.LoadRestoresStoredRegisters : Prop :=
  ∀ (x : Fin 16) (s : State), s.mem.wf → s.i.toNat + x.val ≤ 0xFFF →
    ∃ t, exec (.storeRegs x) s = .next t ∧
      ∀ u : State, u.mem = t.mem → u.i = t.i →
        ∃ w, exec (.loadRegs x) u = .next w ∧ ∀ k : Fin 16, k ≤ x → w.reg k = s.reg k

/-- A byte that LD [I], Vx or LD B, Vx stores over the next opcode, over both its bytes or over one of them, is what the next
fetch reads; a byte not stored to is read as it was. -/
def Obligations.StoredBytesAreFetchedNext : Prop :=
  ∀ (i : Instr) (x : Fin 16) (s : State), i = .storeRegs x ∨ i = .ldB x → s.mem.wf → aboutToRun i s →
    preconditionFault i s = none → s.pc.toNat ≤ 0xFFC →
    ∃ t, step s = .next t ∧ t.result = none ∧ t.pc.toNat = s.pc.toNat + 2 ∧
      fetch t = .ok (storedByte i s (s.pc.toNat + 2) ++ storedByte i s (s.pc.toNat + 3))

/-! ## Host operations and the serializer (47_host_operations.md, 48_state_serializer.md) -/

/-- `load`: an image of at most 3584 bytes goes to 0x200 upward and changes nothing else, the rest of memory included; a
longer one is a LoadError and changes nothing. -/
def Obligations.LoadCopiesImage : Prop :=
  ∀ (bytes : List Byte) (s : State), s.mem.wf →
    (bytes.length ≤ 3584 → ∃ t, perform (.load bytes) s = (.done, t) ∧
      (∀ k, k < bytes.length → t.mem.read (0x200 + k) = bytes.getD k 0) ∧
      (∀ a, a < 0x200 ∨ 0x200 + bytes.length ≤ a → t.mem.read a = s.mem.read a) ∧ unchangedBut [.mem] s t) ∧
    (3584 < bytes.length → perform (.load bytes) s = (.failed .oversized, s))

/-- `set_input`: of 16 booleans, element `k` becomes key `k` and nothing else changes; any other length is a SizeError and
changes nothing. -/
def Obligations.SetInputReplacesKeypad : Prop :=
  ∀ (keys : List Bool) (s : State),
    (keys.length = 16 → ∃ t, perform (.setInput keys) s = (.done, t) ∧
      (∀ k, k < 16 → t.key.getLsbD k = keys.getD k false) ∧ unchangedBut [.key] s t) ∧
    (keys.length ≠ 16 → perform (.setInput keys) s = (.failed .size, s))

/-- `read_frame`: of a buffer of 2048 bytes, byte `py*64 + px` becomes 255 if the cell is lit and 0 if not (255 is decision
D15); any other length is a SizeError; the state does not change. -/
def Obligations.ReadFrameShowsGrid : Prop :=
  ∀ (buffer : List Byte) (s : State),
    (buffer.length = 2048 → ∃ bs, perform (.readFrame buffer) s = (.bytes bs, s) ∧ bs.length = 2048 ∧
      ∀ px py, px < 64 → py < 32 → bs.getD (py * 64 + px) 0 = if s.disp.cell px py then 255 else 0) ∧
    (buffer.length ≠ 2048 → perform (.readFrame buffer) s = (.failed .size, s))

/-- A host operation that fails leaves the state as it was. -/
def Obligations.FailedOperationsChangeNothing : Prop :=
  ∀ (c : Command) (s : State) (e : HostError), (perform c s).1 = .failed e → (perform c s).2 = s

/-- The layout of the blob: 4409 bytes, each field at its offset, 16-bit fields high byte first, display cells and keys from
the low bit up. -/
def Obligations.BlobLayout : Prop :=
  ∀ s : State,
    (getState s).length = 4409 ∧
    (∀ a, a < 4096 → (getState s).getD a 0 = s.mem.read a) ∧
    (∀ r : Fin 16, (getState s).getD (4096 + r.val) 0 = s.reg r) ∧
    (getState s).getD 4112 0 ++ (getState s).getD 4113 0 = s.i ∧
    (getState s).getD 4114 0 ++ (getState s).getD 4115 0 = s.pc ∧
    (∀ k : Fin 16, (getState s).getD (4116 + 2 * k.val) 0 ++ (getState s).getD (4117 + 2 * k.val) 0 = s.stack[k]) ∧
    (getState s).getD 4148 0 = s.sp ∧ (getState s).getD 4149 0 = s.dt ∧ (getState s).getD 4150 0 = s.st ∧
    (∀ c j, c < 256 → j < 8 →
      ((getState s).getD (4151 + c) 0).getLsbD j = s.disp.cell ((8 * c + j) % 64) ((8 * c + j) / 64)) ∧
    (getState s).getD 4407 0 ++ (getState s).getD 4408 0 = s.key

/-- `get_state` answers the blob and changes nothing; two machines have equal blobs iff they are equal in every field. -/
def Obligations.BlobsAreEqualIffMachinesAre : Prop :=
  (∀ s : State, perform .getState s = (.bytes (getState s), s)) ∧
  (∀ s s' : State, s.mem.wf → s'.mem.wf → (getState s = getState s' ↔ sameMachine s s'))

/-- Saving a machine and restoring the blob into any other machine gives a machine equal to it in every field. -/
def Obligations.RestoreAfterSave : Prop :=
  ∀ s s' : State, s.mem.wf → ∃ t, perform (.setState (getState s)) s' = (.done, t) ∧ sameMachine t s

/-- Any 4409 bytes are accepted and come back from `get_state` unchanged (decision D16); any other length is a SizeError and
changes nothing. -/
def Obligations.SaveAfterRestore : Prop :=
  ∀ (bytes : List Byte) (s : State),
    (bytes.length = 4409 → ∃ t, perform (.setState bytes) s = (.done, t) ∧ getState t = bytes) ∧
    (bytes.length ≠ 4409 → perform (.setState bytes) s = (.failed .size, s))

/-- A halted state (decision D22: a jump to itself at `PC`) steps without a fault to a state halted at the same place that
differs in the timers at most, and once both timers are 0 and the last result is `Ok` the step changes nothing at all. -/
def Obligations.HaltedStatesStayHalted : Prop :=
  ∀ (a : BitVec 12) (s : State), haltedAt a s →
    ∃ t, step s = .next t ∧ haltedAt a t ∧ t.result = none ∧ t.faults = s.faults ∧ t.dt.toNat = s.dt.toNat - 1 ∧
      t.st.toNat = s.st.toNat - 1 ∧ unchangedBut [.dt, .st, .fault] s t ∧
      (s.dt = 0 → s.st = 0 → s.result = none → t = s)
end

