-- ==== Sys2Proof/Laws/Decode.lean ====
section
/-! SUPPORT. What each field of an opcode is in each format of the encoder, and that the fields make up the opcode. -/

namespace Sys2Proof

/-- A slice that lies wholly in the low part of a concatenation. -/
theorem extract_low {v w : Nat} (x : BitVec v) (y : BitVec w) {a l : Nat} (h : a + l ≤ w) :
    (x ++ y).extractLsb' a l = y.extractLsb' a l := by
  ext k hk
  simp only [BitVec.getElem_extractLsb', BitVec.getLsbD_append]
  rw [if_pos (by omega)]

/-- A slice that lies wholly in the high part of a concatenation. -/
theorem extract_high {v w : Nat} (x : BitVec v) (y : BitVec w) {a l : Nat} (h : w ≤ a) :
    (x ++ y).extractLsb' a l = x.extractLsb' (a - w) l := by
  ext k hk
  simp only [BitVec.getElem_extractLsb', BitVec.getLsbD_append]
  rw [if_neg (by omega)]
  congr 1
  omega

@[simp] theorem nibble_toFin (x : Fin 16) : (nibble x).toFin = x := rfl

@[simp] theorem nibble_of_toFin (b : BitVec 4) : nibble b.toFin = b := rfl

section formats
variable (g low : BitVec 4) (x y : Fin 16) (kk : Byte) (nnn : BitVec 12)

@[simp] theorem fieldG_NNN : fieldG (formatNNN g nnn) = g := by
  simp only [fieldG, formatNNN]; rw [extract_high _ _ (by decide)]; exact BitVec.extractLsb'_eq_self

@[simp] theorem fieldNNN_NNN : fieldNNN (formatNNN g nnn) = nnn := by
  simp only [fieldNNN, formatNNN]; rw [extract_low _ _ (by decide)]; exact BitVec.extractLsb'_eq_self

@[simp] theorem fieldG_XKK : fieldG (formatXKK g x kk) = g := by
  simp only [fieldG, formatXKK]
  rw [extract_high _ _ (by decide), extract_high _ _ (by decide)]; exact BitVec.extractLsb'_eq_self

@[simp] theorem fieldX_XKK : fieldX (formatXKK g x kk) = x := by
  simp only [fieldX, formatXKK]
  rw [extract_high _ _ (by decide), extract_low _ _ (by decide)]
  exact congrArg BitVec.toFin (BitVec.extractLsb'_eq_self (x := nibble x))

@[simp] theorem fieldKK_XKK : fieldKK (formatXKK g x kk) = kk := by
  simp only [fieldKK, formatXKK]; rw [extract_low _ _ (by decide)]; exact BitVec.extractLsb'_eq_self

@[simp] theorem fieldG_XY : fieldG (formatXY g x y low) = g := by
  simp only [fieldG, formatXY]
  rw [extract_high _ _ (by decide), extract_high _ _ (by decide), extract_high _ _ (by decide)]
  exact BitVec.extractLsb'_eq_self

@[simp] theorem fieldX_XY : fieldX (formatXY g x y low) = x := by
  simp only [fieldX, formatXY]
  rw [extract_high _ _ (by decide), extract_high _ _ (by decide), extract_low _ _ (by decide)]
  exact congrArg BitVec.toFin (BitVec.extractLsb'_eq_self (x := nibble x))

@[simp] theorem fieldY_XY : fieldY (formatXY g x y low) = y := by
  simp only [fieldY, formatXY]
  rw [extract_high _ _ (by decide), extract_low _ _ (by decide)]
  exact congrArg BitVec.toFin (BitVec.extractLsb'_eq_self (x := nibble y))

@[simp] theorem fieldN_XY : fieldN (formatXY g x y low) = low := by
  simp only [fieldN, formatXY]; rw [extract_low _ _ (by decide)]; exact BitVec.extractLsb'_eq_self

end formats

/-- Two adjacent slices make one. -/
theorem extract_join {w l m a b : Nat} (op : BitVec w) (h : a = b + m) :
    op.extractLsb' a l ++ op.extractLsb' b m = op.extractLsb' b (l + m) := by
  ext k hk
  simp only [BitVec.getElem_append, BitVec.getElem_extractLsb']
  split
  · rfl
  · congr 1
    omega

/-- An opcode is its group and its 12-bit field. -/
theorem formatNNN_fields (op : Word) : formatNNN (fieldG op) (fieldNNN op) = op := by
  simp only [formatNNN, fieldG, fieldNNN]
  rw [extract_join op (by decide)]
  exact BitVec.extractLsb'_eq_self

/-- An opcode is its group, its `x` and its low byte. -/
theorem formatXKK_fields (op : Word) : formatXKK (fieldG op) (fieldX op) (fieldKK op) = op := by
  simp only [formatXKK, fieldG, fieldX, fieldKK, nibble_of_toFin]
  rw [extract_join op (by decide), extract_join op (by decide)]
  exact BitVec.extractLsb'_eq_self

/-- An opcode is its four nibbles. -/
theorem formatXY_fields (op : Word) : formatXY (fieldG op) (fieldX op) (fieldY op) (fieldN op) = op := by
  simp only [formatXY, fieldG, fieldX, fieldY, fieldN, nibble_of_toFin]
  rw [extract_join op (by decide), extract_join op (by decide), extract_join op (by decide)]
  exact BitVec.extractLsb'_eq_self

/-- An opcode is its two bytes (20_memory.md R50). -/
@[simp] theorem opcodeOfBytes_bytes (op : Word) : opcodeOfBytes (highByte op) (lowByte op) = op := by
  simp only [opcodeOfBytes, highByte, lowByte]
  rw [extract_join op (by decide)]
  exact BitVec.extractLsb'_eq_self

@[simp] theorem highByte_opcodeOfBytes (hi lo : Byte) : highByte (opcodeOfBytes hi lo) = hi := by
  simp only [highByte, opcodeOfBytes]; rw [extract_high _ _ (by decide)]; exact BitVec.extractLsb'_eq_self

@[simp] theorem lowByte_opcodeOfBytes (hi lo : Byte) : lowByte (opcodeOfBytes hi lo) = lo := by
  simp only [lowByte, opcodeOfBytes]; rw [extract_low _ _ (by decide)]; exact BitVec.extractLsb'_eq_self

end Sys2Proof
end

