-- ==== Sys2Proof/Laws/Display.lean ====
section
/-! SUPPORT. What drawing a sprite does to each cell, and when it reports a collision (44_display.md R142 to R144). -/

namespace Sys2Proof.Machine

open Safety

/-- A toggle flips its own cell and no other. -/
theorem cell_toggle (d : Grid) {px py : Nat} (hx : px ≤ 63) (hy : py ≤ 31) (qx qy : Nat) :
    (d.toggle px py).cell qx qy = (d.cell qx qy ^^ decide (qx = px ∧ qy = py)) := by
  unfold Grid.toggle Grid.cell
  have h : py < 32 := by omega
  simp only [h, dite_true]
  by_cases hq : qy < 32
  · simp only [hq, dite_true, Vector.getElem_set]
    by_cases e : py = qy
    · subst e
      have : px < 64 := by omega
      simp only [if_true, BitVec.getLsbD_xor, BitVec.getLsbD_twoPow, this, decide_true, Bool.true_and, and_true]
      congr 1
      simp [eq_comm]
    · simp [e, Ne.symm e]
  · have : qy ≠ py := by omega
    simp [hq, this]

/-- One set bit of a sprite, cell by cell. -/
theorem drawPixel_cell (px py : Nat) (g : Grid × Bool) {qx qy : Nat} (hx : qx ≤ 63) (hy : qy ≤ 31) :
    (drawPixel px py g).1.cell qx qy = (g.1.cell qx qy ^^ decide (qx = px ∧ qy = py)) := by
  unfold drawPixel
  split
  · rename_i h
    exact cell_toggle _ h.1 h.2 _ _
  · rename_i h
    have : ¬(qx = px ∧ qy = py) := fun e => h ⟨e.1 ▸ hx, e.2 ▸ hy⟩
    simp [this]

/-- One set bit of a sprite raises the collision iff it is on the grid and its cell was lit. -/
theorem drawPixel_coll (px py : Nat) (g : Grid × Bool) :
    (drawPixel px py g).2 = true ↔ g.2 = true ∨ px ≤ 63 ∧ py ≤ 31 ∧ g.1.cell px py = true := by
  unfold drawPixel
  split
  · rename_i h
    simp [h]
  · rename_i h
    constructor
    · exact .inl
    · rintro (h' | ⟨h1, h2, -⟩)
      · exact h'
      · exact absurd ⟨h1, h2⟩ h

/-- The first `k` columns of a sprite row. -/
def drawColumns (b : Byte) (vx r : Nat) (g : Grid × Bool) (k : Nat) : Grid × Bool :=
  (List.range k).foldl (fun g c => if b.getLsbD (7 - c) then drawPixel (vx + c) r g else g) g

theorem drawColumns_succ (b : Byte) (vx r : Nat) (g : Grid × Bool) (k : Nat) :
    drawColumns b vx r g (k + 1) =
      if b.getLsbD (7 - k) then drawPixel (vx + k) r (drawColumns b vx r g k) else drawColumns b vx r g k := by
  simp [drawColumns, List.range_succ]

theorem drawColumns_cell (b : Byte) (vx r : Nat) (g : Grid × Bool) (k : Nat) {px py : Nat} (hx : px ≤ 63) (hy : py ≤ 31) :
    (drawColumns b vx r g k).1.cell px py =
      (g.1.cell px py ^^ (decide (py = r ∧ vx ≤ px ∧ px < vx + k) && b.getLsbD (7 - (px - vx)))) := by
  induction k with
  | zero =>
    have : ¬(py = r ∧ vx ≤ px ∧ px < vx + 0) := by omega
    rw [decide_eq_false this]
    simp [drawColumns]
  | succ k ih =>
    rw [drawColumns_succ]
    by_cases e : px = vx + k ∧ py = r
    · obtain ⟨e1, e2⟩ := e
      have h1 : ¬(py = r ∧ vx ≤ px ∧ px < vx + k) := by omega
      have h2 : (py = r ∧ vx ≤ px ∧ px < vx + (k + 1)) := by omega
      rw [decide_eq_false h1, Bool.false_and, Bool.xor_false] at ih
      rw [decide_eq_true h2, Bool.true_and, show px - vx = k by omega]
      split
      · rename_i hb
        rw [drawPixel_cell _ _ _ hx hy, ih, hb, decide_eq_true ⟨e1, e2⟩]
      · rename_i hb
        rw [ih]
        simp [hb]
    · have h1 : (py = r ∧ vx ≤ px ∧ px < vx + (k + 1)) ↔ (py = r ∧ vx ≤ px ∧ px < vx + k) := by omega
      rw [decide_eq_decide.mpr h1, ← ih]
      split
      · rw [drawPixel_cell _ _ _ hx hy, decide_eq_false e, Bool.xor_false]
      · rfl

theorem drawColumns_coll (b : Byte) (vx r : Nat) (g : Grid × Bool) (k : Nat) :
    (drawColumns b vx r g k).2 = true ↔
      g.2 = true ∨ ∃ px, px ≤ 63 ∧ r ≤ 31 ∧ vx ≤ px ∧ px < vx + k ∧ b.getLsbD (7 - (px - vx)) = true
        ∧ g.1.cell px r = true := by
  induction k with
  | zero =>
    constructor
    · exact .inl
    · rintro (h | ⟨px, h⟩)
      · exact h
      · omega
  | succ k ih =>
    rw [drawColumns_succ]
    constructor
    · intro h
      split at h
      · rename_i hb
        rcases (drawPixel_coll _ _ _).mp h with h | ⟨h1, h2, h3⟩
        · exact (ih.mp h).imp_right fun ⟨px, a, b', c, d, e⟩ => ⟨px, a, b', c, by omega, e⟩
        · rw [drawColumns_cell _ _ _ _ _ h1 h2] at h3
          refine .inr ⟨vx + k, h1, h2, by omega, by omega, by simpa using hb, ?_⟩
          simpa using h3
      · exact (ih.mp h).imp_right fun ⟨px, a, b', c, d, e⟩ => ⟨px, a, b', c, by omega, e⟩
    · intro h
      have old : (drawColumns b vx r g k).2 = true →
          (if b.getLsbD (7 - k) = true then drawPixel (vx + k) r (drawColumns b vx r g k)
            else drawColumns b vx r g k).2 = true := by
        intro h
        split
        · exact (drawPixel_coll _ _ _).mpr (.inl h)
        · exact h
      rcases h with h | ⟨px, h1, h2, h3, h4, h5, h6⟩
      · exact old (ih.mpr (.inl h))
      · by_cases e : px = vx + k
        · subst e
          rw [show vx + k - vx = k by omega] at h5
          rw [if_pos h5]
          refine (drawPixel_coll _ _ _).mpr (.inr ⟨h1, h2, ?_⟩)
          rw [drawColumns_cell _ _ _ _ _ h1 h2]
          simp [h6]
        · exact old (ih.mpr (.inr ⟨px, h1, h2, h3, by omega, h5, h6⟩))

theorem drawRow_eq (b : Byte) (vx r : Nat) (g : Grid × Bool) : drawRow b vx r g = drawColumns b vx r g 8 := rfl

theorem spriteLit_cons (b : Byte) (bs : List Byte) (vx vy px py : Nat) :
    spriteLit (b :: bs) vx vy px py =
      ((decide (py = vy ∧ vx ≤ px ∧ px < vx + 8) && b.getLsbD (7 - (px - vx))) ^^ spriteLit bs vx (vy + 1) px py) := by
  unfold spriteLit
  by_cases hy : py = vy
  · subst hy
    have : ¬(vx ≤ px ∧ px ≤ vx + 7 ∧ py + 1 ≤ py) := by omega
    rw [decide_eq_false this, Bool.false_and, Bool.xor_false]
    congr 1
    · exact decide_eq_decide.mpr (by omega)
    · simp
  · have h1 : ¬(py = vy ∧ vx ≤ px ∧ px < vx + 8) := by omega
    rw [decide_eq_false h1, Bool.false_and, Bool.false_xor]
    by_cases h : vy ≤ py
    · have e : py - vy = (py - (vy + 1)) + 1 := by omega
      rw [e]
      congr 1
      · exact decide_eq_decide.mpr (by omega)
    · have a : ¬(vx ≤ px ∧ px ≤ vx + 7 ∧ vy ≤ py) := by omega
      have b : ¬(vx ≤ px ∧ px ≤ vx + 7 ∧ vy + 1 ≤ py) := by omega
      rw [decide_eq_false a, decide_eq_false b, Bool.false_and, Bool.false_and]

/-- Drawing toggles exactly the cells of the grid that lie under a set bit of the sprite. -/
theorem drawRows_cell (bs : List Byte) (vx : Nat) : ∀ (vy : Nat) (g : Grid × Bool) {px py : Nat}, px ≤ 63 → py ≤ 31 →
    (drawRows bs vx vy g).1.cell px py = (g.1.cell px py ^^ spriteLit bs vx vy px py) := by
  induction bs with
  | nil => intros; simp [drawRows, spriteLit]
  | cons b bs ih =>
    intro vy g px py hx hy
    rw [drawRows, ih _ _ hx hy, drawRow_eq, drawColumns_cell _ _ _ _ _ hx hy, spriteLit_cons, Bool.xor_assoc]

/-- Drawing reports a collision iff some cell under a set bit was lit before (or one had been reported already). -/
theorem drawRows_coll (bs : List Byte) (vx : Nat) : ∀ (vy : Nat) (g : Grid × Bool),
    (drawRows bs vx vy g).2 = true ↔
      g.2 = true ∨ ∃ px py, px ≤ 63 ∧ py ≤ 31 ∧ spriteLit bs vx vy px py = true ∧ g.1.cell px py = true := by
  induction bs with
  | nil => intro vy g; simp [drawRows, spriteLit]
  | cons b bs ih =>
    intro vy g
    rw [drawRows, ih, drawRow_eq, drawColumns_coll]
    have below : ∀ px py, spriteLit bs vx (vy + 1) px py = true → vy + 1 ≤ py := by
      intro px py h
      simp only [spriteLit, Bool.and_eq_true, decide_eq_true_eq] at h
      exact h.1.2.2
    constructor
    · rintro ((h | ⟨px, h1, h2, h3, h4, h5, h6⟩) | ⟨px, py, h1, h2, h3, h4⟩)
      · exact .inl h
      · refine .inr ⟨px, vy, h1, h2, ?_, h6⟩
        simp only [spriteLit, Bool.and_eq_true, decide_eq_true_eq]
        exact ⟨by omega, by simpa using h5⟩
      · have hy := below px py h3
        rw [drawColumns_cell _ _ _ _ _ h1 h2] at h4
        have : ¬(py = vy ∧ vx ≤ px ∧ px < vx + 8) := by omega
        rw [decide_eq_false this, Bool.false_and, Bool.xor_false] at h4
        refine .inr ⟨px, py, h1, h2, ?_, h4⟩
        rw [spriteLit_cons, decide_eq_false this, Bool.false_and, Bool.false_xor, h3]
    · rintro (h | ⟨px, py, h1, h2, h3, h4⟩)
      · exact .inl (.inl h)
      · by_cases e : py = vy ∧ vx ≤ px ∧ px < vx + 8
        · obtain ⟨rfl, e1, e2⟩ := e
          simp only [spriteLit, Bool.and_eq_true, decide_eq_true_eq] at h3
          exact .inl (.inr ⟨px, h1, h2, e1, e2, by simpa using h3.2, h4⟩)
        · rw [spriteLit_cons, decide_eq_false e, Bool.false_and, Bool.false_xor] at h3
          refine .inr ⟨px, py, h1, h2, h3, ?_⟩
          rw [drawColumns_cell _ _ _ _ _ h1 h2, decide_eq_false e, Bool.false_and, Bool.xor_false, h4]

/-- Every cell of the cleared grid is off. -/
@[simp] theorem cell_clear (px py : Nat) : Grid.cell (Vector.replicate 32 0#64) px py = false := by
  simp [Grid.cell]

/-- Grids with the same cells are the same grid. -/
theorem grid_ext {d e : Grid} (h : ∀ px py, px ≤ 63 → py ≤ 31 → d.cell px py = e.cell px py) : d = e := by
  refine Vector.ext fun r hr => BitVec.eq_of_getLsbD_eq fun c hc => ?_
  have := h c r (by omega) (by omega)
  simpa [Grid.cell, hr] using this

end Sys2Proof.Machine
end

