-- ==== Sys2Proof/Laws/State.lean ====
section
/-! SUPPORT. One lemma per field per update of State, so that no proof unfolds a record update. -/

namespace Sys2Proof.Machine

/-! ### setReg -/

@[simp] theorem setReg_mem (s : State) (x : Fin 16) (b : Byte) : (s.setReg x b).mem = s.mem := rfl
@[simp] theorem setReg_v (s : State) (x : Fin 16) (b : Byte) : (s.setReg x b).v = s.v.set x b := rfl
@[simp] theorem setReg_i (s : State) (x : Fin 16) (b : Byte) : (s.setReg x b).i = s.i := rfl
@[simp] theorem setReg_pc (s : State) (x : Fin 16) (b : Byte) : (s.setReg x b).pc = s.pc := rfl
@[simp] theorem setReg_stack (s : State) (x : Fin 16) (b : Byte) : (s.setReg x b).stack = s.stack := rfl
@[simp] theorem setReg_sp (s : State) (x : Fin 16) (b : Byte) : (s.setReg x b).sp = s.sp := rfl
@[simp] theorem setReg_dt (s : State) (x : Fin 16) (b : Byte) : (s.setReg x b).dt = s.dt := rfl
@[simp] theorem setReg_st (s : State) (x : Fin 16) (b : Byte) : (s.setReg x b).st = s.st := rfl
@[simp] theorem setReg_disp (s : State) (x : Fin 16) (b : Byte) : (s.setReg x b).disp = s.disp := rfl
@[simp] theorem setReg_key (s : State) (x : Fin 16) (b : Byte) : (s.setReg x b).key = s.key := rfl
@[simp] theorem setReg_result (s : State) (x : Fin 16) (b : Byte) : (s.setReg x b).result = s.result := rfl
@[simp] theorem setReg_faults (s : State) (x : Fin 16) (b : Byte) : (s.setReg x b).faults = s.faults := rfl
@[simp] theorem setReg_draws (s : State) (x : Fin 16) (b : Byte) : (s.setReg x b).draws = s.draws := rfl

/-! ### setFlag -/

@[simp] theorem setFlag_mem (s : State) (b : Byte) : (s.setFlag b).mem = s.mem := rfl
@[simp] theorem setFlag_v (s : State) (b : Byte) : (s.setFlag b).v = s.v.set 15 b := rfl
@[simp] theorem setFlag_i (s : State) (b : Byte) : (s.setFlag b).i = s.i := rfl
@[simp] theorem setFlag_pc (s : State) (b : Byte) : (s.setFlag b).pc = s.pc := rfl
@[simp] theorem setFlag_stack (s : State) (b : Byte) : (s.setFlag b).stack = s.stack := rfl
@[simp] theorem setFlag_sp (s : State) (b : Byte) : (s.setFlag b).sp = s.sp := rfl
@[simp] theorem setFlag_dt (s : State) (b : Byte) : (s.setFlag b).dt = s.dt := rfl
@[simp] theorem setFlag_st (s : State) (b : Byte) : (s.setFlag b).st = s.st := rfl
@[simp] theorem setFlag_disp (s : State) (b : Byte) : (s.setFlag b).disp = s.disp := rfl
@[simp] theorem setFlag_key (s : State) (b : Byte) : (s.setFlag b).key = s.key := rfl
@[simp] theorem setFlag_result (s : State) (b : Byte) : (s.setFlag b).result = s.result := rfl
@[simp] theorem setFlag_faults (s : State) (b : Byte) : (s.setFlag b).faults = s.faults := rfl
@[simp] theorem setFlag_draws (s : State) (b : Byte) : (s.setFlag b).draws = s.draws := rfl

/-! ### setI -/

@[simp] theorem setI_mem (s : State) (w : Word) : (s.setI w).mem = s.mem := rfl
@[simp] theorem setI_v (s : State) (w : Word) : (s.setI w).v = s.v := rfl
@[simp] theorem setI_i (s : State) (w : Word) : (s.setI w).i = w := rfl
@[simp] theorem setI_pc (s : State) (w : Word) : (s.setI w).pc = s.pc := rfl
@[simp] theorem setI_stack (s : State) (w : Word) : (s.setI w).stack = s.stack := rfl
@[simp] theorem setI_sp (s : State) (w : Word) : (s.setI w).sp = s.sp := rfl
@[simp] theorem setI_dt (s : State) (w : Word) : (s.setI w).dt = s.dt := rfl
@[simp] theorem setI_st (s : State) (w : Word) : (s.setI w).st = s.st := rfl
@[simp] theorem setI_disp (s : State) (w : Word) : (s.setI w).disp = s.disp := rfl
@[simp] theorem setI_key (s : State) (w : Word) : (s.setI w).key = s.key := rfl
@[simp] theorem setI_result (s : State) (w : Word) : (s.setI w).result = s.result := rfl
@[simp] theorem setI_faults (s : State) (w : Word) : (s.setI w).faults = s.faults := rfl
@[simp] theorem setI_draws (s : State) (w : Word) : (s.setI w).draws = s.draws := rfl
@[simp] theorem setI_reg (s : State) (w : Word) (y : Fin 16) : (s.setI w).reg y = s.reg y := rfl

/-! ### setPc -/

@[simp] theorem setPc_mem (s : State) (w : Word) : (s.setPc w).mem = s.mem := rfl
@[simp] theorem setPc_v (s : State) (w : Word) : (s.setPc w).v = s.v := rfl
@[simp] theorem setPc_i (s : State) (w : Word) : (s.setPc w).i = s.i := rfl
@[simp] theorem setPc_pc (s : State) (w : Word) : (s.setPc w).pc = w := rfl
@[simp] theorem setPc_stack (s : State) (w : Word) : (s.setPc w).stack = s.stack := rfl
@[simp] theorem setPc_sp (s : State) (w : Word) : (s.setPc w).sp = s.sp := rfl
@[simp] theorem setPc_dt (s : State) (w : Word) : (s.setPc w).dt = s.dt := rfl
@[simp] theorem setPc_st (s : State) (w : Word) : (s.setPc w).st = s.st := rfl
@[simp] theorem setPc_disp (s : State) (w : Word) : (s.setPc w).disp = s.disp := rfl
@[simp] theorem setPc_key (s : State) (w : Word) : (s.setPc w).key = s.key := rfl
@[simp] theorem setPc_result (s : State) (w : Word) : (s.setPc w).result = s.result := rfl
@[simp] theorem setPc_faults (s : State) (w : Word) : (s.setPc w).faults = s.faults := rfl
@[simp] theorem setPc_draws (s : State) (w : Word) : (s.setPc w).draws = s.draws := rfl
@[simp] theorem setPc_reg (s : State) (w : Word) (y : Fin 16) : (s.setPc w).reg y = s.reg y := rfl

/-! ### skip -/

@[simp] theorem skip_mem (s : State) : (s.skip).mem = s.mem := rfl
@[simp] theorem skip_v (s : State) : (s.skip).v = s.v := rfl
@[simp] theorem skip_i (s : State) : (s.skip).i = s.i := rfl
@[simp] theorem skip_pc (s : State) : (s.skip).pc = s.pc + 2 := rfl
@[simp] theorem skip_stack (s : State) : (s.skip).stack = s.stack := rfl
@[simp] theorem skip_sp (s : State) : (s.skip).sp = s.sp := rfl
@[simp] theorem skip_dt (s : State) : (s.skip).dt = s.dt := rfl
@[simp] theorem skip_st (s : State) : (s.skip).st = s.st := rfl
@[simp] theorem skip_disp (s : State) : (s.skip).disp = s.disp := rfl
@[simp] theorem skip_key (s : State) : (s.skip).key = s.key := rfl
@[simp] theorem skip_result (s : State) : (s.skip).result = s.result := rfl
@[simp] theorem skip_faults (s : State) : (s.skip).faults = s.faults := rfl
@[simp] theorem skip_draws (s : State) : (s.skip).draws = s.draws := rfl
@[simp] theorem skip_reg (s : State) (y : Fin 16) : (s.skip).reg y = s.reg y := rfl

/-! ### setDT -/

@[simp] theorem setDT_mem (s : State) (b : Byte) : (s.setDT b).mem = s.mem := rfl
@[simp] theorem setDT_v (s : State) (b : Byte) : (s.setDT b).v = s.v := rfl
@[simp] theorem setDT_i (s : State) (b : Byte) : (s.setDT b).i = s.i := rfl
@[simp] theorem setDT_pc (s : State) (b : Byte) : (s.setDT b).pc = s.pc := rfl
@[simp] theorem setDT_stack (s : State) (b : Byte) : (s.setDT b).stack = s.stack := rfl
@[simp] theorem setDT_sp (s : State) (b : Byte) : (s.setDT b).sp = s.sp := rfl
@[simp] theorem setDT_dt (s : State) (b : Byte) : (s.setDT b).dt = b := rfl
@[simp] theorem setDT_st (s : State) (b : Byte) : (s.setDT b).st = s.st := rfl
@[simp] theorem setDT_disp (s : State) (b : Byte) : (s.setDT b).disp = s.disp := rfl
@[simp] theorem setDT_key (s : State) (b : Byte) : (s.setDT b).key = s.key := rfl
@[simp] theorem setDT_result (s : State) (b : Byte) : (s.setDT b).result = s.result := rfl
@[simp] theorem setDT_faults (s : State) (b : Byte) : (s.setDT b).faults = s.faults := rfl
@[simp] theorem setDT_draws (s : State) (b : Byte) : (s.setDT b).draws = s.draws := rfl
@[simp] theorem setDT_reg (s : State) (b : Byte) (y : Fin 16) : (s.setDT b).reg y = s.reg y := rfl

/-! ### setST -/

@[simp] theorem setST_mem (s : State) (b : Byte) : (s.setST b).mem = s.mem := rfl
@[simp] theorem setST_v (s : State) (b : Byte) : (s.setST b).v = s.v := rfl
@[simp] theorem setST_i (s : State) (b : Byte) : (s.setST b).i = s.i := rfl
@[simp] theorem setST_pc (s : State) (b : Byte) : (s.setST b).pc = s.pc := rfl
@[simp] theorem setST_stack (s : State) (b : Byte) : (s.setST b).stack = s.stack := rfl
@[simp] theorem setST_sp (s : State) (b : Byte) : (s.setST b).sp = s.sp := rfl
@[simp] theorem setST_dt (s : State) (b : Byte) : (s.setST b).dt = s.dt := rfl
@[simp] theorem setST_st (s : State) (b : Byte) : (s.setST b).st = b := rfl
@[simp] theorem setST_disp (s : State) (b : Byte) : (s.setST b).disp = s.disp := rfl
@[simp] theorem setST_key (s : State) (b : Byte) : (s.setST b).key = s.key := rfl
@[simp] theorem setST_result (s : State) (b : Byte) : (s.setST b).result = s.result := rfl
@[simp] theorem setST_faults (s : State) (b : Byte) : (s.setST b).faults = s.faults := rfl
@[simp] theorem setST_draws (s : State) (b : Byte) : (s.setST b).draws = s.draws := rfl
@[simp] theorem setST_reg (s : State) (b : Byte) (y : Fin 16) : (s.setST b).reg y = s.reg y := rfl

/-! ### setDisp -/

@[simp] theorem setDisp_mem (s : State) (d : Grid) : (s.setDisp d).mem = s.mem := rfl
@[simp] theorem setDisp_v (s : State) (d : Grid) : (s.setDisp d).v = s.v := rfl
@[simp] theorem setDisp_i (s : State) (d : Grid) : (s.setDisp d).i = s.i := rfl
@[simp] theorem setDisp_pc (s : State) (d : Grid) : (s.setDisp d).pc = s.pc := rfl
@[simp] theorem setDisp_stack (s : State) (d : Grid) : (s.setDisp d).stack = s.stack := rfl
@[simp] theorem setDisp_sp (s : State) (d : Grid) : (s.setDisp d).sp = s.sp := rfl
@[simp] theorem setDisp_dt (s : State) (d : Grid) : (s.setDisp d).dt = s.dt := rfl
@[simp] theorem setDisp_st (s : State) (d : Grid) : (s.setDisp d).st = s.st := rfl
@[simp] theorem setDisp_disp (s : State) (d : Grid) : (s.setDisp d).disp = d := rfl
@[simp] theorem setDisp_key (s : State) (d : Grid) : (s.setDisp d).key = s.key := rfl
@[simp] theorem setDisp_result (s : State) (d : Grid) : (s.setDisp d).result = s.result := rfl
@[simp] theorem setDisp_faults (s : State) (d : Grid) : (s.setDisp d).faults = s.faults := rfl
@[simp] theorem setDisp_draws (s : State) (d : Grid) : (s.setDisp d).draws = s.draws := rfl
@[simp] theorem setDisp_reg (s : State) (d : Grid) (y : Fin 16) : (s.setDisp d).reg y = s.reg y := rfl

/-! ### draw8 -/

@[simp] theorem draw8_mem (s : State) : (s.draw8.2).mem = s.mem := rfl
@[simp] theorem draw8_v (s : State) : (s.draw8.2).v = s.v := rfl
@[simp] theorem draw8_i (s : State) : (s.draw8.2).i = s.i := rfl
@[simp] theorem draw8_pc (s : State) : (s.draw8.2).pc = s.pc := rfl
@[simp] theorem draw8_stack (s : State) : (s.draw8.2).stack = s.stack := rfl
@[simp] theorem draw8_sp (s : State) : (s.draw8.2).sp = s.sp := rfl
@[simp] theorem draw8_dt (s : State) : (s.draw8.2).dt = s.dt := rfl
@[simp] theorem draw8_st (s : State) : (s.draw8.2).st = s.st := rfl
@[simp] theorem draw8_disp (s : State) : (s.draw8.2).disp = s.disp := rfl
@[simp] theorem draw8_key (s : State) : (s.draw8.2).key = s.key := rfl
@[simp] theorem draw8_result (s : State) : (s.draw8.2).result = s.result := rfl
@[simp] theorem draw8_faults (s : State) : (s.draw8.2).faults = s.faults := rfl
@[simp] theorem draw8_draws (s : State) : (s.draw8.2).draws = s.draws + 1 := rfl
@[simp] theorem draw8_reg (s : State) (y : Fin 16) : (s.draw8.2).reg y = s.reg y := rfl

/-! ### takeFault -/

@[simp] theorem takeFault_mem (s : State) (f : Fault) : (takeFault f s).mem = s.mem := rfl
@[simp] theorem takeFault_v (s : State) (f : Fault) : (takeFault f s).v = s.v := rfl
@[simp] theorem takeFault_i (s : State) (f : Fault) : (takeFault f s).i = s.i := rfl
@[simp] theorem takeFault_pc (s : State) (f : Fault) : (takeFault f s).pc = s.pc := rfl
@[simp] theorem takeFault_stack (s : State) (f : Fault) : (takeFault f s).stack = s.stack := rfl
@[simp] theorem takeFault_sp (s : State) (f : Fault) : (takeFault f s).sp = s.sp := rfl
@[simp] theorem takeFault_dt (s : State) (f : Fault) : (takeFault f s).dt = s.dt := rfl
@[simp] theorem takeFault_st (s : State) (f : Fault) : (takeFault f s).st = s.st := rfl
@[simp] theorem takeFault_disp (s : State) (f : Fault) : (takeFault f s).disp = s.disp := rfl
@[simp] theorem takeFault_key (s : State) (f : Fault) : (takeFault f s).key = s.key := rfl
@[simp] theorem takeFault_result (s : State) (f : Fault) : (takeFault f s).result = some f := rfl
@[simp] theorem takeFault_faults (s : State) (f : Fault) : (takeFault f s).faults = f :: s.faults := rfl
@[simp] theorem takeFault_draws (s : State) (f : Fault) : (takeFault f s).draws = s.draws := rfl
@[simp] theorem takeFault_reg (s : State) (f : Fault) (y : Fin 16) : (takeFault f s).reg y = s.reg y := rfl

/-! ### advance -/

@[simp] theorem advance_mem (s : State) : (advance s).mem = s.mem := rfl
@[simp] theorem advance_v (s : State) : (advance s).v = s.v := rfl
@[simp] theorem advance_i (s : State) : (advance s).i = s.i := rfl
@[simp] theorem advance_pc (s : State) : (advance s).pc = s.pc + 2 := rfl
@[simp] theorem advance_stack (s : State) : (advance s).stack = s.stack := rfl
@[simp] theorem advance_sp (s : State) : (advance s).sp = s.sp := rfl
@[simp] theorem advance_dt (s : State) : (advance s).dt = s.dt := rfl
@[simp] theorem advance_st (s : State) : (advance s).st = s.st := rfl
@[simp] theorem advance_disp (s : State) : (advance s).disp = s.disp := rfl
@[simp] theorem advance_key (s : State) : (advance s).key = s.key := rfl
@[simp] theorem advance_result (s : State) : (advance s).result = none := rfl
@[simp] theorem advance_faults (s : State) : (advance s).faults = s.faults := rfl
@[simp] theorem advance_draws (s : State) : (advance s).draws = s.draws := rfl
@[simp] theorem advance_reg (s : State) (y : Fin 16) : (advance s).reg y = s.reg y := rfl

/-! ### tick -/

@[simp] theorem tick_mem (s : State) : (tick s).mem = s.mem := rfl
@[simp] theorem tick_v (s : State) : (tick s).v = s.v := rfl
@[simp] theorem tick_i (s : State) : (tick s).i = s.i := rfl
@[simp] theorem tick_pc (s : State) : (tick s).pc = s.pc := rfl
@[simp] theorem tick_stack (s : State) : (tick s).stack = s.stack := rfl
@[simp] theorem tick_sp (s : State) : (tick s).sp = s.sp := rfl
@[simp] theorem tick_dt (s : State) : (tick s).dt = countDown s.dt := rfl
@[simp] theorem tick_st (s : State) : (tick s).st = countDown s.st := rfl
@[simp] theorem tick_disp (s : State) : (tick s).disp = s.disp := rfl
@[simp] theorem tick_key (s : State) : (tick s).key = s.key := rfl
@[simp] theorem tick_result (s : State) : (tick s).result = s.result := rfl
@[simp] theorem tick_faults (s : State) : (tick s).faults = s.faults := rfl
@[simp] theorem tick_draws (s : State) : (tick s).draws = s.draws := rfl
@[simp] theorem tick_reg (s : State) (y : Fin 16) : (tick s).reg y = s.reg y := rfl

/-! ### setRegsUpTo -/

@[simp] theorem setRegsUpTo_mem (s : State) (x : Fin 16) (bs : List Byte) : (setRegsUpTo x bs s).mem = s.mem := rfl
@[simp] theorem setRegsUpTo_v (s : State) (x : Fin 16) (bs : List Byte) : (setRegsUpTo x bs s).v = Vector.ofFn fun k : Fin 16 => if k ≤ x then bs.getD k.val 0 else s.reg k := rfl
@[simp] theorem setRegsUpTo_i (s : State) (x : Fin 16) (bs : List Byte) : (setRegsUpTo x bs s).i = s.i := rfl
@[simp] theorem setRegsUpTo_pc (s : State) (x : Fin 16) (bs : List Byte) : (setRegsUpTo x bs s).pc = s.pc := rfl
@[simp] theorem setRegsUpTo_stack (s : State) (x : Fin 16) (bs : List Byte) : (setRegsUpTo x bs s).stack = s.stack := rfl
@[simp] theorem setRegsUpTo_sp (s : State) (x : Fin 16) (bs : List Byte) : (setRegsUpTo x bs s).sp = s.sp := rfl
@[simp] theorem setRegsUpTo_dt (s : State) (x : Fin 16) (bs : List Byte) : (setRegsUpTo x bs s).dt = s.dt := rfl
@[simp] theorem setRegsUpTo_st (s : State) (x : Fin 16) (bs : List Byte) : (setRegsUpTo x bs s).st = s.st := rfl
@[simp] theorem setRegsUpTo_disp (s : State) (x : Fin 16) (bs : List Byte) : (setRegsUpTo x bs s).disp = s.disp := rfl
@[simp] theorem setRegsUpTo_key (s : State) (x : Fin 16) (bs : List Byte) : (setRegsUpTo x bs s).key = s.key := rfl
@[simp] theorem setRegsUpTo_result (s : State) (x : Fin 16) (bs : List Byte) : (setRegsUpTo x bs s).result = s.result := rfl
@[simp] theorem setRegsUpTo_faults (s : State) (x : Fin 16) (bs : List Byte) : (setRegsUpTo x bs s).faults = s.faults := rfl
@[simp] theorem setRegsUpTo_draws (s : State) (x : Fin 16) (bs : List Byte) : (setRegsUpTo x bs s).draws = s.draws := rfl

/-! ### initMachine -/

@[simp] theorem initMachine_mem (s : State) : (initMachine s).mem = [] := rfl
@[simp] theorem initMachine_v (s : State) : (initMachine s).v = Vector.replicate 16 0 := rfl
@[simp] theorem initMachine_i (s : State) : (initMachine s).i = 0 := rfl
@[simp] theorem initMachine_pc (s : State) : (initMachine s).pc = 0x200 := rfl
@[simp] theorem initMachine_stack (s : State) : (initMachine s).stack = Vector.replicate 16 0 := rfl
@[simp] theorem initMachine_sp (s : State) : (initMachine s).sp = 0 := rfl
@[simp] theorem initMachine_dt (s : State) : (initMachine s).dt = 0 := rfl
@[simp] theorem initMachine_st (s : State) : (initMachine s).st = 0 := rfl
@[simp] theorem initMachine_disp (s : State) : (initMachine s).disp = Vector.replicate 32 0 := rfl
@[simp] theorem initMachine_key (s : State) : (initMachine s).key = 0 := rfl
@[simp] theorem initMachine_result (s : State) : (initMachine s).result = s.result := rfl
@[simp] theorem initMachine_faults (s : State) : (initMachine s).faults = s.faults := rfl
@[simp] theorem initMachine_draws (s : State) : (initMachine s).draws = s.draws := rfl

/-! ### skipIf, setRegThenFlag, endStep -/

@[simp] theorem skipIf_mem (s : State) (c : Bool) : (skipIf c s).mem = s.mem := by cases c <;> rfl
@[simp] theorem skipIf_v (s : State) (c : Bool) : (skipIf c s).v = s.v := by cases c <;> rfl
@[simp] theorem skipIf_i (s : State) (c : Bool) : (skipIf c s).i = s.i := by cases c <;> rfl
@[simp] theorem skipIf_pc (s : State) (c : Bool) : (skipIf c s).pc = if c then s.pc + 2 else s.pc := by
  cases c <;> rfl
@[simp] theorem skipIf_stack (s : State) (c : Bool) : (skipIf c s).stack = s.stack := by cases c <;> rfl
@[simp] theorem skipIf_sp (s : State) (c : Bool) : (skipIf c s).sp = s.sp := by cases c <;> rfl
@[simp] theorem skipIf_dt (s : State) (c : Bool) : (skipIf c s).dt = s.dt := by cases c <;> rfl
@[simp] theorem skipIf_st (s : State) (c : Bool) : (skipIf c s).st = s.st := by cases c <;> rfl
@[simp] theorem skipIf_disp (s : State) (c : Bool) : (skipIf c s).disp = s.disp := by cases c <;> rfl
@[simp] theorem skipIf_key (s : State) (c : Bool) : (skipIf c s).key = s.key := by cases c <;> rfl
@[simp] theorem skipIf_result (s : State) (c : Bool) : (skipIf c s).result = s.result := by cases c <;> rfl
@[simp] theorem skipIf_faults (s : State) (c : Bool) : (skipIf c s).faults = s.faults := by cases c <;> rfl
@[simp] theorem skipIf_draws (s : State) (c : Bool) : (skipIf c s).draws = s.draws := by cases c <;> rfl
@[simp] theorem skipIf_reg (s : State) (c : Bool) (y : Fin 16) : (skipIf c s).reg y = s.reg y := by cases c <;> rfl
@[simp] theorem setRegThenFlag_mem (s : State) (x : Fin 16) (r b : Byte) : (s.setRegThenFlag x r b).mem = s.mem := rfl
@[simp] theorem setRegThenFlag_i (s : State) (x : Fin 16) (r b : Byte) : (s.setRegThenFlag x r b).i = s.i := rfl
@[simp] theorem setRegThenFlag_pc (s : State) (x : Fin 16) (r b : Byte) : (s.setRegThenFlag x r b).pc = s.pc := rfl
@[simp] theorem setRegThenFlag_stack (s : State) (x : Fin 16) (r b : Byte) : (s.setRegThenFlag x r b).stack = s.stack := rfl
@[simp] theorem setRegThenFlag_sp (s : State) (x : Fin 16) (r b : Byte) : (s.setRegThenFlag x r b).sp = s.sp := rfl
@[simp] theorem setRegThenFlag_dt (s : State) (x : Fin 16) (r b : Byte) : (s.setRegThenFlag x r b).dt = s.dt := rfl
@[simp] theorem setRegThenFlag_st (s : State) (x : Fin 16) (r b : Byte) : (s.setRegThenFlag x r b).st = s.st := rfl
@[simp] theorem setRegThenFlag_disp (s : State) (x : Fin 16) (r b : Byte) : (s.setRegThenFlag x r b).disp = s.disp := rfl
@[simp] theorem setRegThenFlag_key (s : State) (x : Fin 16) (r b : Byte) : (s.setRegThenFlag x r b).key = s.key := rfl
@[simp] theorem setRegThenFlag_result (s : State) (x : Fin 16) (r b : Byte) : (s.setRegThenFlag x r b).result = s.result := rfl
@[simp] theorem setRegThenFlag_faults (s : State) (x : Fin 16) (r b : Byte) : (s.setRegThenFlag x r b).faults = s.faults := rfl
@[simp] theorem setRegThenFlag_draws (s : State) (x : Fin 16) (r b : Byte) : (s.setRegThenFlag x r b).draws = s.draws := rfl
@[simp] theorem endStep_mem (s : State) : (endStep s).mem = s.mem := by unfold endStep; split <;> rfl
@[simp] theorem endStep_v (s : State) : (endStep s).v = s.v := by unfold endStep; split <;> rfl
@[simp] theorem endStep_i (s : State) : (endStep s).i = s.i := by unfold endStep; split <;> rfl
@[simp] theorem endStep_pc (s : State) : (endStep s).pc = s.pc := by unfold endStep; split <;> rfl
@[simp] theorem endStep_stack (s : State) : (endStep s).stack = s.stack := by unfold endStep; split <;> rfl
@[simp] theorem endStep_sp (s : State) : (endStep s).sp = s.sp := by unfold endStep; split <;> rfl
@[simp] theorem endStep_disp (s : State) : (endStep s).disp = s.disp := by unfold endStep; split <;> rfl
@[simp] theorem endStep_key (s : State) : (endStep s).key = s.key := by unfold endStep; split <;> rfl
@[simp] theorem endStep_result (s : State) : (endStep s).result = s.result := by unfold endStep; split <;> rfl
@[simp] theorem endStep_faults (s : State) : (endStep s).faults = s.faults := by unfold endStep; split <;> rfl
@[simp] theorem endStep_draws (s : State) : (endStep s).draws = s.draws := by unfold endStep; split <;> rfl
@[simp] theorem endStep_reg (s : State) (y : Fin 16) : (endStep s).reg y = s.reg y := by unfold endStep; split <;> rfl


/-! ### Registers -/

/-- The register file read by the model's accessor. -/
theorem reg_eq (s : State) (x : Fin 16) : s.reg x = s.v[x] := rfl

@[simp] theorem setReg_reg (s : State) (x y : Fin 16) (b : Byte) :
    (s.setReg x b).reg y = if y = x then b else s.reg y := by
  simp only [State.reg, State.setReg, Fin.getElem_fin, Vector.getElem_set, Fin.ext_iff, eq_comm]

@[simp] theorem setFlag_reg (s : State) (y : Fin 16) (b : Byte) :
    (s.setFlag b).reg y = if y = 15 then b else s.reg y := setReg_reg s 15 y b

@[simp] theorem setRegsUpTo_reg (s : State) (x y : Fin 16) (bs : List Byte) :
    (setRegsUpTo x bs s).reg y = if y ≤ x then bs.getD y.val 0 else s.reg y := by
  simp [State.reg, setRegsUpTo]

@[simp] theorem draw8_fst (s : State) : s.draw8.1 = Config.draw s.draws := rfl

/-- Result first, flag last (10_state.md R25). -/
theorem setRegThenFlag_reg (s : State) (x y : Fin 16) (r f : Byte) :
    (s.setRegThenFlag x r f).reg y = if y = 15 then f else if y = x then r else s.reg y := by
  simp [State.setRegThenFlag]

/-- Two states with the same registers through the accessor have the same register file. -/
theorem v_ext {s t : State} (h : ∀ x, s.reg x = t.reg x) : s.v = t.v :=
  Vector.ext fun k hk => h ⟨k, hk⟩

end Sys2Proof.Machine
end

