-- ==== Sys2Proof/Laws/Ops.lean ====
section
/-! SUPPORT. What each shared operation can do, said once: memory, the bounds check, the stack, the phases of a step. -/

namespace Sys2Proof.Machine

/-! ## One byte of memory -/

@[simp] theorem read_nil (a : Nat) : Memory.read [] a = initialByte a := rfl

theorem read_cons (k : Nat) (b : Byte) (m : Memory) (a : Nat) :
    Memory.read ((k, b) :: m) a = if a = k then b else Memory.read m a := rfl

/-- An address that is not listed reads as its reset contents. -/
theorem read_unlisted {m : Memory} {a : Nat} (h : ∀ c ∈ m, c.1 ≠ a) : m.read a = initialByte a := by
  induction m with
  | nil => rfl
  | cons c m ih =>
    rw [read_cons, if_neg (Ne.symm (h c List.mem_cons_self))]
    exact ih fun d hd => h d (List.mem_cons_of_mem _ hd)

theorem read_listedCell_append (a : Nat) (b : Byte) (m : Memory) (k : Nat) (h : k ≠ a) :
    Memory.read (listedCell a b ++ m) k = m.read k := by
  unfold listedCell
  split
  · rfl
  · simp [read_cons, h]

/-- A write leaves every other address alone. -/
theorem read_write_other (m : Memory) {a k : Nat} (b : Byte) (h : k ≠ a) : (m.write a b).read k = m.read k := by
  induction m with
  | nil => simpa [Memory.write] using read_listedCell_append a b [] k h
  | cons c m ih =>
    simp only [Memory.write]
    split
    · exact read_listedCell_append a b _ k h
    · split
      · rename_i hac
        rw [read_listedCell_append a b _ k h, read_cons, if_neg (hac ▸ h)]
      · rw [read_cons, ih]; rfl

/-- A write to a memory in rising order is what the next read of that address gives. -/
theorem read_write_same {m : Memory} (hm : m.Pairwise (fun p q => p.1 < q.1)) (a : Nat) (b : Byte) :
    (m.write a b).read a = b := by
  have front : ∀ l : Memory, (∀ c ∈ l, a < c.1) → Memory.read (listedCell a b ++ l) a = b := by
    intro l hl
    unfold listedCell
    split
    · rename_i hb
      rw [List.nil_append, read_unlisted fun c hc => Nat.ne_of_gt (hl c hc), hb]
    · simp [read_cons]
  induction m with
  | nil => simpa [Memory.write] using front []
  | cons c m ih =>
    rw [List.pairwise_cons] at hm
    simp only [Memory.write]
    split
    · rename_i hlt
      exact front _ fun d hd => (List.mem_cons.mp hd).elim (fun e => e ▸ hlt) fun hd => hlt.trans (hm.1 d hd)
    · split
      · rename_i hac
        exact front _ fun d hd => hac ▸ hm.1 d hd
      · rename_i hne
        rw [read_cons, if_neg hne]
        exact ih hm.2

theorem mem_listedCell {a : Nat} {b : Byte} {c : Host.Cell} (h : c ∈ listedCell a b) :
    c = (a, b) ∧ b ≠ initialByte a := by
  unfold listedCell at h
  split at h
  · cases h
  · exact ⟨List.mem_singleton.mp h, ‹_›⟩

/-- What a write lists: what was listed, and the cell written. -/
theorem mem_write {m : Memory} {a : Nat} {b : Byte} {c : Host.Cell} (h : c ∈ m.write a b) :
    c ∈ m ∨ c = (a, b) ∧ b ≠ initialByte a := by
  induction m with
  | nil => exact .inr (mem_listedCell h)
  | cons d m ih =>
    simp only [Memory.write] at h
    split at h
    · exact (List.mem_append.mp h).elim (fun h => .inr (mem_listedCell h)) .inl
    · split at h
      · exact (List.mem_append.mp h).elim (fun h => .inr (mem_listedCell h)) fun h => .inl (List.mem_cons_of_mem _ h)
      · exact (List.mem_cons.mp h).elim (fun h => .inl (h ▸ List.mem_cons_self))
          fun h => (ih h).imp (List.mem_cons_of_mem _) id

theorem pairwise_listedCell_append {a : Nat} {b : Byte} {m : Memory} (hm : m.Pairwise (fun p q => p.1 < q.1))
    (h : ∀ c ∈ m, a < c.1) : (listedCell a b ++ m).Pairwise (fun p q => p.1 < q.1) := by
  unfold listedCell
  split
  · exact hm
  · exact List.pairwise_cons.mpr ⟨h, hm⟩

/-- A write inside memory keeps the canonical form. -/
theorem write_wf {m : Memory} (hm : m.wf) {a : Nat} (ha : a < 4096) (b : Byte) : (m.write a b).wf := by
  refine ⟨?_, fun c hc => ?_⟩
  · obtain ⟨hs, -⟩ := hm
    induction m with
    | nil => exact pairwise_listedCell_append .nil (fun _ h => nomatch h) |> fun h => by simpa [Memory.write] using h
    | cons d m ih =>
      rw [List.pairwise_cons] at hs
      simp only [Memory.write]
      split
      · rename_i hlt
        exact pairwise_listedCell_append (List.pairwise_cons.mpr hs) fun c hc =>
          (List.mem_cons.mp hc).elim (fun e => e ▸ hlt) fun hc => hlt.trans (hs.1 c hc)
      · split
        · rename_i hac
          exact pairwise_listedCell_append hs.2 fun c hc => hac ▸ hs.1 c hc
        · refine List.pairwise_cons.mpr ⟨fun c hc => ?_, ih hs.2⟩
          rcases mem_write hc with hc | ⟨rfl, -⟩
          · exact hs.1 c hc
          · show d.1 < a
            omega
  · rcases mem_write hc with hc | ⟨rfl, hb⟩
    · exact hm.2 c hc
    · exact ⟨ha, hb⟩

/-! ## Ranges -/

/-- Writing a range leaves every address outside it alone. -/
theorem read_writeFrom_other (bs : List Byte) : ∀ (m : Memory) {a k : Nat}, (k < a ∨ a + bs.length ≤ k) →
    (m.writeFrom a bs).read k = m.read k := by
  induction bs with
  | nil => intros; rfl
  | cons b bs ih =>
    intro m a k h
    rw [List.length_cons] at h
    rw [Memory.writeFrom, ih _ (by omega), read_write_other _ _ (by omega)]

/-- Writing a range inside memory keeps the canonical form. -/
theorem writeFrom_wf (bs : List Byte) : ∀ {m : Memory} {a : Nat}, m.wf → a + bs.length ≤ 4096 → (m.writeFrom a bs).wf := by
  induction bs with
  | nil => intro m a hm _; exact hm
  | cons b bs ih =>
    intro m a hm h
    rw [List.length_cons] at h
    exact ih (write_wf hm (by omega) b) (by omega)

/-- Writing a range puts byte `k - a` of the list at address `k`. -/
theorem read_writeFrom_same (bs : List Byte) : ∀ {m : Memory} {a k : Nat}, m.wf → a + bs.length ≤ 4096 →
    a ≤ k → k < a + bs.length → (m.writeFrom a bs).read k = bs.getD (k - a) 0 := by
  induction bs with
  | nil => intro m a k _ _ h1 h2; simp at h2; omega
  | cons b bs ih =>
    intro m a k hm h h1 h2
    rw [List.length_cons] at h h2
    rw [Memory.writeFrom]
    by_cases hk : k = a
    · subst hk
      rw [read_writeFrom_other _ _ (.inl (by omega)), read_write_same hm.1]
      simp
    · rw [ih (write_wf hm (by omega) b) (by omega) (by omega) (by omega), show k - a = (k - (a + 1)) + 1 by omega]
      simp

@[simp] theorem readFrom_length (m : Memory) (a n : Nat) : (m.readFrom a n).length = n := by simp [Memory.readFrom]

/-- Byte `k` of a range read is the byte at `a + k`. -/
theorem readFrom_getD (m : Memory) (a : Nat) {n k : Nat} (h : k < n) : (m.readFrom a n).getD k 0 = m.read (a + k) := by
  simp [Memory.readFrom, List.getD, h]

/-- Memory from a blob is in canonical form if the blob fits. -/
theorem ofBytes_wf (bs : List Byte) : ∀ {a : Nat}, a + bs.length ≤ 4096 →
    (Memory.ofBytes a bs).wf ∧ ∀ c ∈ Memory.ofBytes a bs, a ≤ c.1 := by
  induction bs with
  | nil => intro a _; exact ⟨⟨.nil, fun _ h => nomatch h⟩, fun _ h => nomatch h⟩
  | cons b bs ih =>
    intro a h
    rw [List.length_cons] at h
    obtain ⟨hw, hl⟩ := ih (a := a + 1) (by omega)
    refine ⟨⟨pairwise_listedCell_append hw.1 fun c hc => hl c hc, fun c hc => ?_⟩, fun c hc => ?_⟩
    · rcases List.mem_append.mp hc with hc | hc
      · obtain ⟨rfl, hb⟩ := mem_listedCell hc
        exact ⟨show a < 4096 by omega, hb⟩
      · exact hw.2 c hc
    · rcases List.mem_append.mp hc with hc | hc
      · obtain ⟨rfl, -⟩ := mem_listedCell hc
        exact Nat.le_refl a
      · exact Nat.le_of_succ_le (hl c hc)

/-- Memory from a blob reads as the blob inside it. -/
theorem read_ofBytes (bs : List Byte) : ∀ {a k : Nat}, a + bs.length ≤ 4096 → a ≤ k → k < a + bs.length →
    (Memory.ofBytes a bs).read k = bs.getD (k - a) 0 := by
  induction bs with
  | nil => intro a k _ h1 h2; simp at h2; omega
  | cons b bs ih =>
    intro a k h h1 h2
    rw [List.length_cons] at h h2
    rw [Memory.ofBytes]
    by_cases hk : k = a
    · subst hk
      have hl := (ofBytes_wf bs (a := k + 1) (by omega)).2
      unfold listedCell
      split
      · rename_i hb
        rw [List.nil_append, read_unlisted fun c hc => Nat.ne_of_gt (hl c hc)]
        simp [hb]
      · simp [read_cons]
    · rw [read_listedCell_append _ _ _ _ hk, ih (by omega) (by omega) (by omega),
        show k - a = (k - (a + 1)) + 1 by omega]
      simp

/-! ## The bounds check (20_memory.md R56) -/

theorem inMemory_iff (base : Word) (n : Nat) : inMemory base n = true ↔ n = 0 ∨ base.toNat + n - 1 ≤ 0xFFF := by
  simp [inMemory]

theorem inMemory_false_iff (base : Word) (n : Nat) : inMemory base n = false ↔ 0 < n ∧ 0xFFF < base.toNat + n - 1 := by
  have := inMemory_iff base n
  cases h : inMemory base n <;> simp_all <;> omega

/-- What a read of a range can do. -/
theorem loadBytes_cases (base : Word) (n : Nat) (s : State) :
    inMemory base n = true ∧ loadBytes base n s = .ok (s.mem.readFrom base.toNat n) ∨
    inMemory base n = false ∧ loadBytes base n s = .error (.addressFault base) := by
  unfold loadBytes
  cases h : inMemory base n <;> simp

/-- What a write of a range can do. -/
theorem storeBytes_cases (base : Word) (bs : List Byte) (s : State) :
    inMemory base bs.length = true ∧
      storeBytes base bs s = .ok { s with mem := s.mem.writeFrom base.toNat bs } ∨
    inMemory base bs.length = false ∧ storeBytes base bs s = .error (.addressFault base) := by
  unfold storeBytes
  cases h : inMemory base bs.length <;> simp

/-! ## The stack -/

/-- What a push can do. -/
theorem push_cases (op w : Word) (s : State) :
    (∃ h : s.sp.toNat < 16,
      push op w s = .ok { s with stack := s.stack.set s.sp.toNat w, sp := s.sp + 1 }) ∨
    16 ≤ s.sp.toNat ∧ push op w s = .error (.stackOverflow op) := by
  unfold push
  by_cases h : s.sp.toNat < 16
  · exact .inl ⟨h, dif_pos h⟩
  · exact .inr ⟨by omega, dif_neg h⟩

/-- What a pop can do. -/
theorem pop_cases (op : Word) (s : State) :
    (∃ h : 1 ≤ s.sp.toNat ∧ s.sp.toNat ≤ 16,
      pop op s = .ok (s.stack[s.sp.toNat - 1], { s with sp := s.sp - 1 })) ∨
    ¬(1 ≤ s.sp.toNat ∧ s.sp.toNat ≤ 16) ∧ pop op s = .error (.stackUnderflow op) := by
  unfold pop
  by_cases h : 1 ≤ s.sp.toNat ∧ s.sp.toNat ≤ 16
  · exact .inl ⟨h, dif_pos h⟩
  · exact .inr ⟨h, dif_neg h⟩

/-! ## The keypad -/

/-- What reading a key number can do. -/
theorem keyOperand_cases (op : Word) (vx : Byte) :
    vx.toNat ≤ 15 ∧ keyOperand op vx = .ok vx.toNat ∨
    15 < vx.toNat ∧ keyOperand op vx = .error (.keyIndexFault op) := by
  unfold keyOperand
  by_cases h : vx.toNat > 15
  · exact .inr ⟨h, if_pos h⟩
  · exact .inl ⟨by omega, if_neg h⟩

/-! ## The lengths of the byte operands -/

@[simp] theorem regsUpTo_length (x : Fin 16) (s : State) : (regsUpTo x s).length = x.val + 1 := by
  simp [regsUpTo]

@[simp] theorem decimalDigits_length (vx : Byte) : (decimalDigits vx).length = 3 := rfl

/-- The key LD Vx, K reports is down and every key below it is up. -/
theorem firstKeyDown_some {s : State} {k : Nat} (h : firstKeyDown s = some k) :
    k < 16 ∧ keyDown s k = true ∧ ∀ j < k, keyDown s j = false := by
  unfold firstKeyDown at h
  rw [List.find?_range_eq_some] at h
  obtain ⟨h1, h2, h3⟩ := h
  exact ⟨by simpa using h2, h1, fun j hj => by simpa using h3 j hj⟩

/-- LD Vx, K waits iff no key is down. -/
theorem firstKeyDown_none {s : State} : firstKeyDown s = none ↔ ∀ k < 16, keyDown s k = false := by
  simp [firstKeyDown]

/-! ## Ends of a meaning and of a step -/

@[simp] theorem settle_ok (s t : State) : settle s (.ok t) = .next t := rfl

@[simp] theorem settle_error (s : State) (f : Fault) : settle s (.error f) = .next (takeFault f s) := rfl

theorem endStep_ok {s : State} (h : s.result = none) : endStep s = tick s := if_pos h

theorem endStep_fault {s : State} {f : Fault} (h : s.result = some f) : endStep s = s :=
  if_neg (by simp [h])

/-- The tick of one timer, as a number: one less, floored at 0 (40_step_cycle.md R95). -/
theorem countDown_toNat (t : Byte) : (countDown t).toNat = t.toNat - 1 := by
  unfold countDown
  split
  · bv_omega
  · omega

/-- What a fetch can do (R91). -/
theorem fetch_cases (s : State) :
    s.pc.toNat ≤ 0xFFE ∧ fetch s = .ok (opcodeOfBytes (s.mem.read s.pc.toNat) (s.mem.read (s.pc.toNat + 1))) ∨
    0xFFE < s.pc.toNat ∧ fetch s = .error (.addressFault s.pc) := by
  unfold fetch
  rcases loadBytes_cases s.pc 2 s with ⟨h, e⟩ | ⟨h, e⟩
  · refine .inl ⟨?_, ?_⟩
    · rw [inMemory_iff] at h; omega
    · rw [e]
      simp only [Except.map, readFrom_getD _ _ (show 0 < 2 by decide), readFrom_getD _ _ (show 1 < 2 by decide), Nat.add_zero]
  · refine .inr ⟨?_, by rw [e]; rfl⟩
    have : ¬ (inMemory s.pc 2 = true) := by simp [h]
    rw [inMemory_iff] at this
    omega

end Sys2Proof.Machine
end

