-- ==== Sys2Proof/Laws/PerInstr.lean ====
section
/-! SUPPORT. Statements made of every instruction as syntax, one lemma per constructor.

`EncodesInRow`: the opcode of an instruction is selected by the instruction's own row of R76 (30_encoding.md). -/

namespace Sys2Proof

/-- A mask that keeps the group nibble keeps it alone. -/
theorem and_NNN (g : BitVec 4) (nnn : BitVec 12) : formatNNN g nnn &&& 0xF000#16 = g ++ 0x000#12 := by
  show (g ++ nnn) &&& (0xF#4 ++ 0x000#12) = _
  rw [BitVec.and_append, show (0xF#4 : BitVec 4) = BitVec.allOnes 4 from rfl, BitVec.and_allOnes, BitVec.and_zero]

/-- Formats `XKK` and `XY` are formats `NNN` of their group. -/
theorem formatXKK_group (g : BitVec 4) (x : Fin 16) (kk : Byte) : formatXKK g x kk &&& 0xF000#16 = g ++ 0x000#12 := by
  rw [← formatNNN_fields (formatXKK g x kk), fieldG_XKK, and_NNN]

theorem formatXY_group (g low : BitVec 4) (x y : Fin 16) : formatXY g x y low &&& 0xF000#16 = g ++ 0x000#12 := by
  rw [← formatNNN_fields (formatXY g x y low), fieldG_XY, and_NNN]

/-- The mask 0xF00F keeps the group and the low nibble. -/
theorem and_XY (g low : BitVec 4) (x y : Fin 16) : formatXY g x y low &&& 0xF00F#16 = g ++ 0x0#4 ++ 0x0#4 ++ low := by
  show ((g ++ nibble x ++ nibble y ++ low) &&& (0xF#4 ++ 0x0#4 ++ 0x0#4 ++ 0xF#4) : BitVec (4 + 4 + 4 + 4)) =
    (g ++ 0x0#4 ++ 0x0#4 ++ low : BitVec (4 + 4 + 4 + 4))
  rw [BitVec.and_append, BitVec.and_append, BitVec.and_append, show (0xF#4 : BitVec 4) = BitVec.allOnes 4 from rfl,
    BitVec.and_allOnes, BitVec.and_allOnes, BitVec.and_zero, BitVec.and_zero]

/-- The mask 0xF0FF keeps the group and the low byte. -/
theorem and_XKK (g : BitVec 4) (x : Fin 16) (kk : Byte) : formatXKK g x kk &&& 0xF0FF#16 = g ++ 0x0#4 ++ kk := by
  show ((g ++ nibble x ++ kk) &&& (0xF#4 ++ 0x0#4 ++ 0xFF#8) : BitVec (4 + 4 + 8)) =
    (g ++ 0x0#4 ++ kk : BitVec (4 + 4 + 8))
  rw [BitVec.and_append, BitVec.and_append, show (0xF#4 : BitVec 4) = BitVec.allOnes 4 from rfl,
    show (0xFF#8 : BitVec 8) = BitVec.allOnes 8 from rfl, BitVec.and_allOnes, BitVec.and_allOnes, BitVec.and_zero]

end Sys2Proof

namespace Sys2Proof.Laws.EncodesInRow

/-- The instruction's opcode matches the instruction's row of the opcode map (R76). -/
def Statement (i : Instr) : Prop := encode i &&& (rowOf i).mask = (rowOf i).value

theorem cls : Statement .cls := rfl
theorem ret : Statement .ret := rfl
theorem jpAddr (nnn : BitVec 12) : Statement (.jpAddr nnn) := and_NNN _ _
theorem callAddr (nnn : BitVec 12) : Statement (.callAddr nnn) := and_NNN _ _
theorem seByte (x : Fin 16) (kk : Byte) : Statement (.seByte x kk) := formatXKK_group _ _ _
theorem sneByte (x : Fin 16) (kk : Byte) : Statement (.sneByte x kk) := formatXKK_group _ _ _
theorem seReg (x y : Fin 16) (low : BitVec 4) : Statement (.seReg x y low) := formatXY_group _ _ _ _
theorem ldByte (x : Fin 16) (kk : Byte) : Statement (.ldByte x kk) := formatXKK_group _ _ _
theorem addByte (x : Fin 16) (kk : Byte) : Statement (.addByte x kk) := formatXKK_group _ _ _
theorem ldReg (x y : Fin 16) : Statement (.ldReg x y) := and_XY _ _ _ _
theorem orReg (x y : Fin 16) : Statement (.orReg x y) := and_XY _ _ _ _
theorem andReg (x y : Fin 16) : Statement (.andReg x y) := and_XY _ _ _ _
theorem xorReg (x y : Fin 16) : Statement (.xorReg x y) := and_XY _ _ _ _
theorem addReg (x y : Fin 16) : Statement (.addReg x y) := and_XY _ _ _ _
theorem subReg (x y : Fin 16) : Statement (.subReg x y) := and_XY _ _ _ _
theorem shr (x y : Fin 16) : Statement (.shr x y) := and_XY _ _ _ _
theorem subn (x y : Fin 16) : Statement (.subn x y) := and_XY _ _ _ _
theorem shl (x y : Fin 16) : Statement (.shl x y) := and_XY _ _ _ _
theorem sneReg (x y : Fin 16) (low : BitVec 4) : Statement (.sneReg x y low) := formatXY_group _ _ _ _
theorem ldI (nnn : BitVec 12) : Statement (.ldI nnn) := and_NNN _ _
theorem jpV0 (nnn : BitVec 12) : Statement (.jpV0 nnn) := and_NNN _ _
theorem rnd (x : Fin 16) (kk : Byte) : Statement (.rnd x kk) := formatXKK_group _ _ _
theorem drw (x y n : Fin 16) : Statement (.drw x y n) := formatXY_group _ _ _ _
theorem skp (x : Fin 16) : Statement (.skp x) := and_XKK _ _ _
theorem sknp (x : Fin 16) : Statement (.sknp x) := and_XKK _ _ _
theorem ldVxDT (x : Fin 16) : Statement (.ldVxDT x) := and_XKK _ _ _
theorem ldVxK (x : Fin 16) : Statement (.ldVxK x) := and_XKK _ _ _
theorem ldDTVx (x : Fin 16) : Statement (.ldDTVx x) := and_XKK _ _ _
theorem ldSTVx (x : Fin 16) : Statement (.ldSTVx x) := and_XKK _ _ _
theorem addI (x : Fin 16) : Statement (.addI x) := and_XKK _ _ _
theorem ldF (x : Fin 16) : Statement (.ldF x) := and_XKK _ _ _
theorem ldB (x : Fin 16) : Statement (.ldB x) := and_XKK _ _ _
theorem storeRegs (x : Fin 16) : Statement (.storeRegs x) := and_XKK _ _ _
theorem loadRegs (x : Fin 16) : Statement (.loadRegs x) := and_XKK _ _ _

end Sys2Proof.Laws.EncodesInRow
end

