-- ==== Sys2Proof/Laws/Step.lean ====
section
/-! SUPPORT. What a meaning that may fault, and a step, can do: the inversion lemmas the claims about steps go through. -/

namespace Sys2Proof.Machine

/-- A meaning that ends in `settle` answers its state, or the fault taken in the state it began in. -/
theorem settle_cases {s t : State} {r : Except Fault State} (h : settle s r = .next t) :
    r = .ok t ∨ ∃ f, r = .error f ∧ t = takeFault f s := by
  cases r with
  | ok u => exact .inl (by simpa using h)
  | error f => exact .inr ⟨f, rfl, by simpa using h.symm⟩

/-- A meaning whose precondition an operation checks: it goes on from what the operation gives, or takes its fault. -/
theorem settle_map_cases {α : Type} {s : State} {r : Except Fault α} {g : α → State}
    (hg : ∀ a, r = .ok a → (g a).result = s.result ∧ (g a).faults = s.faults) :
    (∃ t, settle s (r.map g) = .next t ∧ t.result = s.result ∧ t.faults = s.faults) ∨
    ∃ f, settle s (r.map g) = .next (takeFault f s) := by
  cases r with
  | ok a => exact .inl ⟨_, rfl, hg a rfl⟩
  | error f => exact .inr ⟨f, rfl⟩

/-- What an instruction can do: it always answers a next state, and in it the result and the record of faults are as they were,
or it is the fault taken in the state the instruction began in (40_step_cycle.md R93). -/
theorem exec_cases (i : Instr) (s : State) :
    (∃ t, exec i s = .next t ∧ t.result = s.result ∧ t.faults = s.faults) ∨ ∃ f, exec i s = .next (takeFault f s) := by
  cases i with
  | ret =>
    refine settle_map_cases fun a h => ?_
    rcases pop_cases (encode .ret) s with ⟨_, e⟩ | ⟨_, e⟩ <;> rw [e] at h <;> cases h
    exact ⟨rfl, rfl⟩
  | callAddr nnn =>
    refine settle_map_cases fun a h => ?_
    rcases push_cases (encode (.callAddr nnn)) s.pc s with ⟨_, e⟩ | ⟨_, e⟩ <;> rw [e] at h <;> cases h
    exact ⟨rfl, rfl⟩
  | drw x y n => exact settle_map_cases fun _ _ => ⟨rfl, rfl⟩
  | skp x => exact settle_map_cases fun _ _ => by simp
  | sknp x => exact settle_map_cases fun _ _ => by simp
  | ldB x =>
    have hx : exec (.ldB x) s = settle s (storeBytes s.i (decimalDigits (s.reg x)) s) := rfl
    rcases storeBytes_cases s.i (decimalDigits (s.reg x)) s with ⟨_, e⟩ | ⟨_, e⟩ <;> rw [hx, e]
    · exact .inl ⟨_, rfl, rfl, rfl⟩
    · exact .inr ⟨_, rfl⟩
  | storeRegs x =>
    have hx : exec (.storeRegs x) s = settle s (storeBytes s.i (regsUpTo x s) s) := rfl
    rcases storeBytes_cases s.i (regsUpTo x s) s with ⟨_, e⟩ | ⟨_, e⟩ <;> rw [hx, e]
    · exact .inl ⟨_, rfl, rfl, rfl⟩
    · exact .inr ⟨_, rfl⟩
  | loadRegs x => exact settle_map_cases fun _ _ => ⟨rfl, rfl⟩
  | ldVxK x =>
    have hx : exec (.ldVxK x) s = match firstKeyDown s with
      | some k => .next (s.setReg x (BitVec.ofNat 8 k))
      | none => .next (s.setPc (s.pc - 2)) := rfl
    rw [hx]
    cases firstKeyDown s <;> exact .inl ⟨_, rfl, rfl, rfl⟩
  | _ => exact .inl ⟨_, rfl, by simp, by simp⟩

/-- What a step can do (40_step_cycle.md R90): the fetch fault, the decode fault, or an instruction and the end of the step. -/
theorem step_cases {s t : State} (h : step s = .next t) :
    (0xFFE < s.pc.toNat ∧ t = takeFault (.addressFault s.pc) s) ∨
    (∃ op r, s.pc.toNat ≤ 0xFFE ∧ fetch s = .ok op ∧ decodeOp op = .error r ∧
      t = takeFault (.decodeError op) (advance s)) ∨
    (∃ op i u, s.pc.toNat ≤ 0xFFE ∧ fetch s = .ok op ∧ decodeOp op = .ok i ∧ exec i (advance s) = .next u ∧
      t = endStep u) := by
  unfold step at h
  rcases fetch_cases s with ⟨hp, hf⟩ | ⟨hp, hf⟩
  · rw [hf] at h
    dsimp only at h
    right
    cases hd : decodeOp (opcodeOfBytes (s.mem.read s.pc.toNat) (s.mem.read (s.pc.toNat + 1))) with
    | error r =>
      rw [hd] at h
      exact .inl ⟨_, r, hp, hf, hd, by simpa using h.symm⟩
    | ok i =>
      rw [hd] at h
      dsimp only at h
      cases he : exec i (advance s) with
      | next u =>
        rw [he] at h
        exact .inr ⟨_, i, u, hp, hf, hd, he, by simpa using h.symm⟩
      | fault f => rw [he] at h; cases h
      | refused r => rw [he] at h; cases h
  · rw [hf] at h
    exact .inl ⟨hp, by simpa using h.symm⟩

/-- The operations keep the canonical form of memory: a range write that passes the bounds check. -/
theorem storeBytes_wf {base : Word} {bs : List Byte} {s t : State} (hs : s.mem.wf) (h : storeBytes base bs s = .ok t) :
    t.mem.wf := by
  rcases storeBytes_cases base bs s with ⟨hb, e⟩ | ⟨-, e⟩
  · rw [e] at h
    cases h
    rw [inMemory_iff] at hb
    rcases hb with hb | hb
    · rw [List.eq_nil_of_length_eq_zero hb]
      exact hs
    · by_cases h0 : bs.length = 0
      · rw [List.eq_nil_of_length_eq_zero h0]
        exact hs
      · exact writeFrom_wf bs hs (by omega)
  · rw [e] at h; cases h

/-- An image that `load` accepts keeps the canonical form. -/
theorem load_wf {bytes : List Byte} {s t : State} (hs : s.mem.wf) (h : load bytes s = .ok t) : t.mem.wf := by
  unfold load at h
  split at h
  · cases h
  · cases h
    exact writeFrom_wf bytes hs (by simp only [Config.maxRom, Config.progBase] at *; omega)

/-- A state read from a blob has its memory in canonical form. -/
theorem decodeBlob_wf (bytes : List Byte) (s : State) : (decodeBlob bytes s).mem.wf :=
  (ofBytes_wf (bytes.take 4096) (a := 0) (by simp)).1

/-- Reset memory is in canonical form. -/
theorem reset_wf : State.reset.mem.wf := ⟨.nil, fun _ h => nomatch h⟩

end Sys2Proof.Machine
end

