-- ==== Sys2Proof/Tests/Slice0.lean ====
section
/-! SUPPORT. The model's own tests, and one witness for the hypotheses of each statement.

Expected results come from spec/95_test_vectors.md, whose sections the comments name, or by hand from the rule named.
A vector's start state is the reset state with its opcode at 0x200 and the named fields changed. -/

namespace Sys2Proof.Tests

open Machine Safety Claims

/-! ## Small states -/

/-- The reset state with the opcode at 0x200. -/
def prog (op : Word) : State := State.reset.withFetchWord 16 op.toNat

/-- The registers named, set. -/
def withRegs (l : List (Fin 16 × Byte)) (s : State) : State := l.foldl (fun t p => t.setReg p.1 p.2) s

/-- Bytes placed in memory. -/
def withBytes (a : Nat) (bs : List Byte) (s : State) : State := { s with mem := s.mem.writeFrom a bs }

/-- The state after one step. -/
def after (s : State) : State :=
  match step s with
  | .next t => t
  | .fault _ => s
  | .refused _ => s

/-- The cells of the grid's top left corner, row by row, of a given size. -/
def corner (w h : Nat) (s : State) : List (List Bool) :=
  (List.range h).map fun py => (List.range w).map fun px => s.disp.cell px py

/-- The bytes of memory at `a .. a+n-1`. -/
def bytesAt (a n : Nat) (s : State) : List Byte := s.mem.readFrom a n

/-! ## WellFormed (30_encoding.md R77) -/

/-- The two checks refuse a low nibble that is not 0. -/
theorem test_wellFormed_refuses :
    Instr.wellFormed (.seReg 1 2 7) = false ∧ Instr.wellFormed (.sneReg 10 11 15) = false := by decide

/-- The canonical forms pass, and for the shifts every `y` does. -/
theorem test_wellFormed_accepts :
    Instr.wellFormed (.seReg 1 2 0) = true ∧ Instr.wellFormed (.sneReg 10 11 0) = true ∧
    Instr.wellFormed (.shr 1 2) = true ∧ Instr.wellFormed (.shl 1 0) = true := by decide

/-! ## Decode: words written out bit by bit from R76 and R72, the opcode read in both directions -/

/-- The word decodes to the instruction, and the instruction encodes to the word. -/
abbrev means (op : Word) (i : Instr) : Prop := decodeOp op = .ok i ∧ encode i = op

theorem test_decode_display_return :
    means 0b0000000011100000 .cls ∧ means 0b0000000011101110 .ret ∧
    means 0b1101000100100101 (.drw 1 2 5) := by decide

theorem test_decode_control :
    means 0b0001101010111100 (.jpAddr 0xABC) ∧ means 0b0010101010111100 (.callAddr 0xABC) ∧
    means 0b1011000100100011 (.jpV0 0x123) ∧
    means 0b0011101001000010 (.seByte 10 0x42) ∧ means 0b0100101001000010 (.sneByte 10 0x42) ∧
    means 0b0101000100100000 (.seReg 1 2 0) ∧ means 0b0101000100100111 (.seReg 1 2 7) ∧
    means 0b1001101010111111 (.sneReg 10 11 15) := by decide

theorem test_decode_arithmetic :
    means 0b0110101000101100 (.ldByte 10 0x2C) ∧ means 0b0111000110000000 (.addByte 1 0x80) ∧
    means 0b1000000100100000 (.ldReg 1 2) ∧ means 0b1000000100100001 (.orReg 1 2) ∧
    means 0b1000000100100010 (.andReg 1 2) ∧ means 0b1000000100100011 (.xorReg 1 2) ∧
    means 0b1000000100100100 (.addReg 1 2) ∧ means 0b1000000100100101 (.subReg 1 2) ∧
    means 0b1000000100100110 (.shr 1 2) ∧ means 0b1000000100100111 (.subn 1 2) ∧
    means 0b1000000100101110 (.shl 1 2) := by decide

theorem test_decode_random : means 0b1100001100001111 (.rnd 3 0x0F) := by decide

theorem test_decode_timer_key :
    means 0b1110000010011110 (.skp 0) ∧ means 0b1110000110100001 (.sknp 1) ∧
    means 0b1111010000000111 (.ldVxDT 4) ∧ means 0b1111001100001010 (.ldVxK 3) ∧
    means 0b1111001100010101 (.ldDTVx 3) ∧ means 0b1111000000011000 (.ldSTVx 0) := by decide

theorem test_decode_index :
    means 0b1010000100100011 (.ldI 0x123) ∧ means 0b1111001000011110 (.addI 2) ∧
    means 0b1111000000101001 (.ldF 0) ∧ means 0b1111000000110011 (.ldB 0) ∧
    means 0b1111001001010101 (.storeRegs 2) ∧ means 0b1111000101100101 (.loadRegs 1) := by decide

/-- The word decodes to nothing. -/
abbrev refused (op : Word) (r : Reject) : Prop := decodeOp op = .error r

/-- Section 2.1: undefined opcodes of group 0, SYS and SCHIP encodings among them. -/
theorem test_decode_undefined_group0 :
    refused 0x0000 .undefinedGroup0 ∧ refused 0x00E1 .undefinedGroup0 ∧ refused 0x01E0 .undefinedGroup0 ∧
    refused 0x0123 .undefinedGroup0 ∧ refused 0x00FD .undefinedGroup0 ∧ refused 0x00C1 .undefinedGroup0 :=
  ⟨rfl, rfl, rfl, rfl, rfl, rfl⟩

/-- Section 2.1: undefined opcodes of groups 8, E and F. -/
theorem test_decode_undefined_others :
    refused 0x8128 .undefinedGroup8 ∧ refused 0x812D .undefinedGroup8 ∧ refused 0x812F .undefinedGroup8 ∧
    refused 0xE19F .undefinedGroupE ∧ refused 0xE000 .undefinedGroupE ∧
    refused 0xF100 .undefinedGroupF ∧ refused 0xF030 .undefinedGroupF ∧ refused 0xFFFF .undefinedGroupF :=
  ⟨rfl, rfl, rfl, rfl, rfl, rfl, rfl, rfl⟩

/-- The host's form of the decoder: the word's bits as numbered in spec/opcode_table.json. -/
theorem test_decodeTableWord :
    decodeTableWord 16 0xD125 = some (.drw 1 2 5) ∧ decodeTableWord 16 0x00EE = some .ret ∧
    decodeTableWord 16 0x0000 = none := by decide

/-! ## Reset and the font (10_state.md R40, R41) -/

theorem test_reset_font :
    bytesAt 0x19 5 State.reset = [0xF0, 0x80, 0xF0, 0x10, 0xF0] ∧
    bytesAt 0x4B 6 State.reset = [0xF0, 0x80, 0xF0, 0x80, 0x80, 0x00] ∧ font.length = 80 := by decide

theorem test_reset_fields : State.reset.pc = 0x200 ∧ State.reset.sp = 0 ∧ State.reset.mem = [] := by decide

/-- The canonical form: writing a byte its reset contents removes its entry. -/
theorem test_memory_canonical :
    Memory.write [(0x300, 7)] 0x300 0 = [] ∧ Memory.write [] 0 0xF0 = [] ∧
    Memory.write [(0x300, 7)] 0x200 1 = [(0x200, 1), (0x300, 7)] := by decide

/-! ## One step: arithmetic and logic (section 2.2) -/

theorem test_addReg_carries :
    let t := after (withRegs [(0, 0xFF), (1, 0x01)] (prog 0x8014)); t.reg 0 = 0x00 ∧ t.reg 1 = 0x01 ∧ t.reg 15 = 1 := by decide

theorem test_addReg_flag_last : (after (withRegs [(15, 0xFF), (1, 0x02)] (prog 0x8F14))).reg 15 = 1 := by decide

theorem test_subReg_wraps :
    let t := after (withRegs [(0, 0x01), (1, 0x02)] (prog 0x8015)); t.reg 0 = 0xFF ∧ t.reg 15 = 0 := by decide

theorem test_subReg_equal_clears :
    let t := after (withRegs [(0, 5), (1, 5), (15, 1)] (prog 0x8015)); t.reg 0 = 0 ∧ t.reg 15 = 0 := by decide

theorem test_subn_sets :
    let t := after (withRegs [(0, 0x01), (1, 0x02)] (prog 0x8017)); t.reg 0 = 0x01 ∧ t.reg 15 = 1 := by decide

theorem test_shr_ignores_vy :
    let t := after (withRegs [(0, 0x05), (1, 0xAA)] (prog 0x8016)); t.reg 0 = 0x02 ∧ t.reg 1 = 0xAA ∧ t.reg 15 = 1 := by decide

theorem test_shl_ignores_vy :
    let t := after (withRegs [(0, 0x81), (1, 0xAA)] (prog 0x801E)); t.reg 0 = 0x02 ∧ t.reg 1 = 0xAA ∧ t.reg 15 = 1 := by decide

theorem test_orReg_keeps_flag :
    let t := after (withRegs [(0, 0xF0), (1, 0x0F), (15, 1)] (prog 0x8011)); t.reg 0 = 0xFF ∧ t.reg 15 = 1 := by decide

theorem test_andReg_keeps_flag :
    let t := after (withRegs [(0, 0xF3), (1, 0x3F), (15, 1)] (prog 0x8012)); t.reg 0 = 0x33 ∧ t.reg 15 = 1 := by decide

theorem test_xorReg_into_flag : (after (withRegs [(15, 0x0F), (1, 0xFF)] (prog 0x8F13))).reg 15 = 0xF0 := by decide

theorem test_ldReg : (after (withRegs [(0, 0x11), (1, 0x7E)] (prog 0x8010))).reg 0 = 0x7E := by decide

theorem test_ldByte : (after (prog 0x6A2C)).reg 10 = 0x2C := by decide

theorem test_addByte_wraps_without_flag :
    let t := after (withRegs [(0, 0xFF), (15, 7)] (prog 0x7001)); t.reg 0 = 0 ∧ t.reg 15 = 7 := by decide

/-! ## Control flow (section 2.3) -/

theorem test_jpAddr : (after (prog 0x1ABC)).pc = 0x0ABC := by decide

theorem test_jpV0_past_memory : (after (withRegs [(0, 0xFF)] (prog 0xBFFF))).pc = 0x10FE := by decide

theorem test_callAddr_last_slot :
    let t := after { prog 0x2ABC with sp := 15 }; t.pc = 0x0ABC ∧ t.sp = 16 ∧ t.stack[15] = 0x0202 := by decide

theorem test_callAddr_overflow :
    let t := after { prog 0x2ABC with sp := 16 }
    t.result = some (.stackOverflow 0x2ABC) ∧ t.pc = 0x0202 ∧ t.sp = 16 := by decide

theorem test_ret_keeps_slot :
    let t := after { prog 0x00EE with sp := 1, stack := State.reset.stack.set 0 0x0206 }
    t.pc = 0x0206 ∧ t.sp = 0 ∧ t.stack[0] = 0x0206 := by decide

theorem test_ret_underflow :
    (after (prog 0x00EE)).result = some (.stackUnderflow 0x00EE) ∧
    (after { prog 0x00EE with sp := 17 }).result = some (.stackUnderflow 0x00EE) := by decide

theorem test_seByte :
    (after (withRegs [(10, 0x42)] (prog 0x3A42))).pc = 0x204 ∧ (after (withRegs [(10, 0x43)] (prog 0x3A42))).pc = 0x202 := by decide

theorem test_sneByte :
    (after (withRegs [(10, 0x42)] (prog 0x4A42))).pc = 0x202 ∧ (after (withRegs [(10, 0x43)] (prog 0x4A42))).pc = 0x204 := by decide

theorem test_seReg_ignores_low_nibble : (after (withRegs [(10, 7), (11, 7)] (prog 0x5AB7))).pc = 0x204 := by decide

theorem test_sneReg_ignores_low_nibble : (after (withRegs [(10, 7), (11, 8)] (prog 0x9ABF))).pc = 0x204 := by decide

/-- The fetch vectors: no tick on a fetch fault; an odd `PC` executes. -/
theorem test_fetch_fault :
    let t := after { State.reset with pc := 0x0FFF, dt := 3 }
    t.result = some (.addressFault 0x0FFF) ∧ t.pc = 0x0FFF ∧ t.dt = 3 := by decide

theorem test_fetch_odd_pc :
    let t := after (withBytes 0x200 [0x00, 0x60, 0x2A, 0x00] { State.reset with pc := 0x0201 })
    t.pc = 0x0203 ∧ t.reg 0 = 0x2A := by decide

/-! ## Random (section 2.4): for every draw -/

theorem test_rnd_masks_any_draw : (after (prog 0xC30F)).reg 3 = Config.draw 0 &&& 0x0F ∧ (after (prog 0xC30F)).draws = 1 :=
  ⟨rfl, rfl⟩

/-! ## Display (section 2.5) -/

theorem test_drw_glyph_zero :
    let t := after (prog 0xD015)
    corner 5 5 t = [[true, true, true, true, false], [true, false, false, true, false], [true, false, false, true, false],
      [true, false, false, true, false], [true, true, true, true, false]] ∧ t.reg 15 = 0 := by decide

theorem test_drw_collides_and_clips :
    (let t := after (withBytes 0x300 [0xC0] { prog 0xD011 with i := 0x300, disp := State.reset.disp.set 0 0b10 })
     t.disp.cell 0 0 = true ∧ t.disp.cell 1 0 = false ∧ t.reg 15 = 1) ∧
    (let t := after (withRegs [(0, 60), (1, 31)] (withBytes 0x300 [0xFF] { prog 0xD011 with i := 0x300 }))
     (List.range 64).map (t.disp.cell · 31) = List.replicate 60 false ++ List.replicate 4 true ∧
     t.disp.cell 0 0 = false ∧ t.reg 15 = 0) := by decide

theorem test_cls : (after { prog 0x00E0 with disp := Vector.replicate 32 1 }).disp = State.reset.disp := by decide

/-! ## Timers and keypad (section 2.6) -/

theorem test_ldVxDT_before_tick : let t := after { prog 0xF407 with dt := 59 }; t.reg 4 = 0x3B ∧ t.dt = 58 := by decide

theorem test_ldDTVx_then_tick : (after (withRegs [(3, 60)] (prog 0xF315))).dt = 59 := by decide

theorem test_ldDTVx_zero : (after (withRegs [(3, 0)] { prog 0xF315 with dt := 9 })).dt = 0 := by decide

theorem test_ldSTVx_then_tick : (after (withRegs [(0, 0xFF)] (prog 0xF018))).st = 254 := by decide

theorem test_skp :
    (after (withRegs [(0, 15)] { prog 0xE09E with key := 0x8000 })).pc = 0x204 ∧
    (after (withRegs [(0, 5)] (prog 0xE09E))).pc = 0x202 := by decide

theorem test_skp_key_index :
    let t := after (withRegs [(0, 16)] { prog 0xE09E with key := 1 })
    t.result = some (.keyIndexFault 0xE09E) ∧ t.pc = 0x202 := by decide

theorem test_sknp :
    (after (withRegs [(0, 5)] { prog 0xE0A1 with key := 0x20 })).pc = 0x202 ∧
    (after (withRegs [(0, 5)] (prog 0xE0A1))).pc = 0x204 := by decide

theorem test_sknp_key_index :
    let t := after (withRegs [(0, 0xFF)] { prog 0xE0A1 with dt := 5 })
    t.result = some (.keyIndexFault 0xE0A1) ∧ t.dt = 5 := by decide

theorem test_ldVxK_waits :
    let t := after (withRegs [(3, 0x99)] { prog 0xF30A with dt := 5 }); t.pc = 0x200 ∧ t.reg 3 = 0x99 ∧ t.dt = 4 := by decide

theorem test_ldVxK_least_key : let t := after { prog 0xF30A with key := 0x280 }; t.pc = 0x202 ∧ t.reg 3 = 7 := by decide

/-! ## Index and memory (section 2.7) -/

theorem test_ldI : (after (prog 0xA123)).i = 0x123 := by decide

theorem test_addI_wraps : (after (withRegs [(2, 0xFF)] { prog 0xF21E with i := 0xFF80 })).i = 0x007F := by decide

theorem test_ldF_whole_register : (after (withRegs [(0, 0xFF)] (prog 0xF029))).i = 0x04FB := by decide

theorem test_ldB_digits : bytesAt 0x300 3 (after (withRegs [(0, 0xEA)] { prog 0xF033 with i := 0x300 })) = [2, 3, 4] := by decide

theorem test_ldB_fault :
    let t := after (withRegs [(0, 0x7B)] { prog 0xF033 with i := 0xFFE })
    t.result = some (.addressFault 0xFFE) ∧ bytesAt 0xFFE 2 t = [0, 0] := by decide

theorem test_storeRegs :
    let t := after (withRegs [(0, 1), (1, 2), (2, 3), (3, 4)] { prog 0xF255 with i := 0x400 })
    bytesAt 0x400 4 t = [1, 2, 3, 0] ∧ t.i = 0x400 := by decide

theorem test_storeRegs_fault :
    let t := after (withRegs [(0, 0xAB), (1, 0xCD)] { prog 0xF155 with i := 0xFFF })
    t.result = some (.addressFault 0xFFF) ∧ bytesAt 0xFFF 1 t = [0] := by decide

theorem test_loadRegs_font :
    (after (prog 0xFF65)).v.toList =
      [0xF0, 0x90, 0x90, 0x90, 0xF0, 0x20, 0x60, 0x20, 0x20, 0x70, 0xF0, 0x10, 0xF0, 0x80, 0xF0, 0xF0] := by decide

theorem test_loadRegs_keeps_above :
    let t := after (withRegs [(3, 0x77)] (withBytes 0x300 [2, 3, 4, 5] { prog 0xF265 with i := 0x300 }))
    t.reg 2 = 4 ∧ t.reg 3 = 0x77 ∧ t.i = 0x300 := by decide

/-! ## Host operations and the blob (section 2.8) -/

theorem test_load_oversized : load (List.replicate 3585 1) State.reset = .error .oversized := by
  unfold load
  rw [if_pos (by rw [List.length_replicate]; decide)]

theorem test_set_input :
    (perform (.setInput [false, false, false, false, false, false, false, true, false, true, false, false, false, false, false,
      false]) State.reset).2.key = 0x280 ∧
    (perform (.setInput [true]) State.reset).1 = .failed .size := by decide

/-- The bytes of a 16-bit field, and of a grid row: cell `8k` is bit 0 of byte `k`. -/
theorem test_blob_parts :
    bigEndian 0x8201 = [0x82, 0x01] ∧ rowAt [1, 0, 0, 0, 0, 0, 0, 0xC0] 0 = 0xC000000000000001 := by decide

/-! ## Witnesses: for every statement with hypotheses, states and operands that meet them, clause by clause -/

theorem test_witness_EncodeOfDecode : decodeOp 0x5127 = .ok (.seReg 1 2 7) := rfl

theorem test_witness_DecodeFollowsOpcodeMap :
    decodeOp 0x8126 = .ok (.shr 1 2) ∧ (⟨0xF00F, 0x8006⟩ : OpcodeRow) ∈ opcodeTable ∧
    OpcodeRow.selects ⟨0xF00F, 0x8006⟩ 0x8126 = true := ⟨rfl, by decide, by decide⟩

/-- Section 2.3: the last address an opcode can be fetched from, with `JP 0x200` there. -/
def jumpAtEnd : State := withBytes 0xFFE [0x12, 0x00] { State.reset with pc := 0xFFE }

theorem test_witness_StepRunsDecodedInstruction :
    jumpAtEnd.pc.toNat ≤ 0xFFE ∧
    decodeOp (jumpAtEnd.mem.read jumpAtEnd.pc.toNat ++ jumpAtEnd.mem.read (jumpAtEnd.pc.toNat + 1)) = .ok (.jpAddr 0x200) :=
  ⟨by decide, rfl⟩

/-- Section 2.1: the result the statement is about, and the state that raises it; the opcode 0000 at the last address. -/
def undefinedAtEnd : State := { State.reset with pc := 0xFFE, dt := 9 }

theorem test_witness_DecodeErrorOnUndefinedOpcodes :
    step undefinedAtEnd = .next (after undefinedAtEnd) ∧ (after undefinedAtEnd).result = some (.decodeError 0) ∧
    undefinedAtEnd.pc.toNat ≤ 0xFFE ∧ 0 = opcodeAtPC undefinedAtEnd ∧ decodeOp 0 = .error .undefinedGroup0 :=
  ⟨rfl, rfl, by decide, by decide, rfl⟩

/-- Section 2.6: any instruction ticks. -/
def ticking : State := { prog 0x6000 with dt := 255, st := 1 }

theorem test_witness_TimersTickOncePerStep :
    step ticking = .next (after ticking) ∧ (after ticking).result = none ∧ (after ticking).dt = 254 ∧ (after ticking).st = 0 :=
  ⟨rfl, rfl, by decide, by decide⟩

/-- A fetch one past the last legal `PC`. -/
def fetchPastEnd : State := { State.reset with pc := 0xFFF, dt := 3 }

theorem test_witness_FaultingStepChangesOnlyPc :
    (step fetchPastEnd = .next (after fetchPastEnd) ∧ (after fetchPastEnd).result = some (.addressFault 0xFFF) ∧
      0xFFE < fetchPastEnd.pc.toNat) ∧
    (step undefinedAtEnd = .next (after undefinedAtEnd) ∧ (after undefinedAtEnd).result = some (.decodeError 0) ∧
      undefinedAtEnd.pc.toNat ≤ 0xFFE) := ⟨⟨rfl, rfl, by decide⟩, ⟨rfl, rfl, by decide⟩⟩

/-- One state for each cause, at the bound of its condition, and the neighbours that do not fault. -/
theorem test_witness_FaultCausesExactly :
    stepFault fetchPastEnd = some (.addressFault 0xFFF) ∧ stepFault undefinedAtEnd = some (.decodeError 0) ∧
    stepFault { prog 0x2ABC with sp := 16 } = some (.stackOverflow 0x2ABC) ∧ stepFault { prog 0x2ABC with sp := 15 } = none ∧
    stepFault { prog 0x00EE with sp := 17 } = some (.stackUnderflow 0x00EE) ∧ stepFault { prog 0x00EE with sp := 16 } = none ∧
    stepFault { prog 0xF033 with i := 0xFFE } = some (.addressFault 0xFFE) ∧ stepFault { prog 0xF033 with i := 0xFFD } = none ∧
    stepFault (withRegs [(0, 16)] (prog 0xE09E)) = some (.keyIndexFault 0xE09E) ∧
    stepFault (withRegs [(0, 15)] (prog 0xE09E)) = none ∧
    step undefinedAtEnd = .next (after undefinedAtEnd) :=
  ⟨rfl, rfl, rfl, rfl, rfl, rfl, rfl, rfl, rfl, rfl, rfl⟩

/-- R181: the reply of the host's `step`, a fault and `Ok`. -/
theorem test_step_reply :
    (perform .step undefinedAtEnd).1 = .fault (.decodeError 0) ∧ (perform .step ticking).1 = .done := by decide

theorem test_witness_FaultRecordIsSticky :
    step undefinedAtEnd = .next (after undefinedAtEnd) ∧ (after undefinedAtEnd).faults = [.decodeError 0] ∧
    Command.init ≠ Command.step := ⟨rfl, rfl, by decide⟩

theorem test_witness_PcAfterEveryStep :
    (step fetchPastEnd = .next (after fetchPastEnd) ∧ 0xFFE < fetchPastEnd.pc.toNat) ∧
    (step undefinedAtEnd = .next (after undefinedAtEnd) ∧ undefinedAtEnd.pc.toNat ≤ 0xFFE ∧
      (after undefinedAtEnd).result = some (.decodeError 0)) ∧
    (step jumpAtEnd = .next (after jumpAtEnd) ∧ aboutToRun (.jpAddr 0x200) jumpAtEnd ∧ (after jumpAtEnd).result = none) :=
  ⟨⟨rfl, by decide⟩, ⟨rfl, by decide, rfl⟩, ⟨rfl, ⟨by decide, rfl⟩, rfl⟩⟩

/-- 70_reset_and_hazards.md section 1: the first two steps of the empty machine. -/
theorem test_witness_EmptyMachineRun :
    Sys2Proof.core.run 2 State.reset = .next (after (after State.reset)) ∧ (after (after State.reset)).pc = 0x204 ∧
    (after (after State.reset)).faults = [.decodeError 0, .decodeError 0] := ⟨rfl, by decide, by decide⟩

theorem test_witness_InitLeavesResetValues : (perform .init jumpAtEnd).2 = State.reset := rfl

/-- A store into the last byte of memory. -/
def storeAtEnd : State := withRegs [(0, 0xAB)] { prog 0xF055 with i := 0xFFF }

theorem test_witness_StepKeepsMemoryCanonical :
    storeAtEnd.mem.wf ∧ step storeAtEnd = .next (after storeAtEnd) ∧
    (after storeAtEnd).mem = [(0x200, 0xF0), (0x201, 0x55), (0xFFF, 0xAB)] := ⟨by decide, rfl, rfl⟩

theorem test_witness_HostOperationsKeepMemoryCanonical : storeAtEnd.mem.wf := by decide

theorem test_witness_CanonicalMemoriesReadingAlikeAreEqual :
    Memory.wf [(0, 0), (0xFFF, 1)] ∧ ∀ a, a < 4096 → Memory.read [(0, 0), (0xFFF, 1)] a = Memory.read [(0, 0), (0xFFF, 1)] a :=
  ⟨by decide, fun _ _ => rfl⟩

/-- A CALL into the last free slot. -/
def callLast : State := { prog 0x2ABC with sp := 15 }

theorem test_witness_StepKeepsStackInRange :
    stackInRange callLast ∧ step callLast = .next (after callLast) ∧ (after callLast).sp = 16 ∧ stackInRange (after callLast) :=
  ⟨by decide, rfl, by decide, by decide⟩

/-- The jump that takes `PC` highest, and a return to the highest address a CALL pushes. -/
def jumpHighest : State := withRegs [(0, 0xFF)] (prog 0xBFFF)

/-- See `jumpHighest`. -/
def returnHighest : State := { prog 0x00EE with sp := 16, stack := State.reset.stack.set 15 0x1000 }

theorem test_witness_PcStaysInRangeWithoutSetState :
    (pcInRange jumpHighest ∧ step jumpHighest = .next (after jumpHighest) ∧ (after jumpHighest).pc = 0x10FE) ∧
    (pcInRange returnHighest ∧ step returnHighest = .next (after returnHighest) ∧ (after returnHighest).pc = 0x1000) ∧
    (∀ bytes, Command.init ≠ .setState bytes) := by
  refine ⟨⟨by decide, rfl, by decide⟩, ⟨by decide, rfl, by decide⟩, fun _ h => nomatch h⟩

theorem test_witness_FrameOfEveryInstruction :
    exec (.storeRegs 0) storeAtEnd = .next (withBytes 0xFFF [0xAB] storeAtEnd) ∧
    namesDestination 0 (.storeRegs 0) = false ∧ ¬(0 = (15 : Fin 16) ∧ writesFlag (.storeRegs 0) = true) ∧
    ¬storesTo storeAtEnd 0xFFE (.storeRegs 0) ∧ ¬storesTo storeAtEnd 0x1000 (.storeRegs 0) := by
  refine ⟨rfl, by decide, by decide, ?_, ?_⟩ <;> (unfold storesTo; decide)

theorem test_witness_KeypadIsReadOnlyToInstructions :
    exec .cls State.reset = .next State.reset ∧ step ticking = .next (after ticking) ∧
    (∀ x, Instr.cls ≠ .skp x ∧ Instr.cls ≠ .sknp x ∧ Instr.cls ≠ .ldVxK x) ∧
    (perform .init { State.reset with key := 1 }).2.key ≠ ({ State.reset with key := 1 } : State).key :=
  ⟨rfl, rfl, by decide, by decide⟩

theorem test_witness_SixInstructionsWriteTheFlag :
    (exec (.addReg 0 1) State.reset = .next State.reset ∧ writesFlag (.addReg 0 1) = true) ∧
    (exec .cls State.reset = .next State.reset ∧ writesFlag .cls = false ∧ namesDestination 15 .cls = false) :=
  ⟨⟨rfl, rfl⟩, rfl, rfl, rfl⟩

/-- The same machine with other fields of the model's own. -/
def redrawn (s : State) : State := { s with draws := 7, faults := [.decodeError 0] }

theorem test_witness_OnlyRandomDependsOnTheEnvironment :
    sameMachine ticking (redrawn ticking) ∧ step ticking = .next (after ticking) ∧
    step (redrawn ticking) = .next (after (redrawn ticking)) ∧ (∀ x kk, ¬aboutToRun (.rnd x kk) ticking) ∧
    aboutToRun (.rnd 3 0x0F) (prog 0xC30F) := by
  refine ⟨by decide, rfl, rfl, ?_, by decide, rfl⟩
  rintro x kk ⟨-, h⟩
  exact nomatch (show Except.ok (Instr.ldByte 0 0) = Except.ok (Instr.rnd x kk) from h)

/-- ImmediateAndCopyInstructions, LogicInstructions, AddSetsCarry, SubtractionsSetStrictGreater, ShiftsByOne, RandomIsMasked:
registers other than the destination, destinations other than `VF`, mask bits that are 0. -/
theorem test_witness_other_registers_and_mask_bits :
    (1 : Fin 16) ≠ 0 ∧ (0 : Fin 16) ≠ 15 ∧ (1 : Fin 16) ≠ 15 ∧ (0x0F : Byte).getLsbD 4 = false ∧
    (0x0F : Byte).getLsbD 7 = false := by decide

theorem test_witness_CallPushesReturnAddress :
    ({ State.reset with sp := 15 } : State).sp.toNat < 16 ∧ 16 ≤ ({ State.reset with sp := 16 } : State).sp.toNat := by decide

theorem test_witness_ReturnPopsReturnAddress :
    (∀ b ∈ [1, 16], 1 ≤ ({ State.reset with sp := b } : State).sp.toNat ∧ ({ State.reset with sp := b } : State).sp.toNat ≤ 16) ∧
    State.reset.sp.toNat = 0 ∧ 16 < ({ State.reset with sp := 17 } : State).sp.toNat := by decide

theorem test_witness_ReturnUndoesCall : callLast.sp.toNat < 16 := by decide

theorem test_witness_DrawXorsSprite :
    ((0 : Fin 16).val = 0 ∨ (0xFFFF : Word).toNat + (0 : Fin 16).val - 1 ≤ 0xFFF) ∧
    ((1 : Fin 16).val = 0 ∨ (0xFFF : Word).toNat + (1 : Fin 16).val - 1 ≤ 0xFFF) ∧
    (0 < (1 : Fin 16).val ∧ 0xFFF < (0x1000 : Word).toNat + (1 : Fin 16).val - 1) := by decide

/-- A sprite with a visible pixel, drawn on an empty grid. -/
theorem test_witness_DrawTwiceRestoresGrid :
    (0 : Fin 16) ≠ 15 ∧ State.reset.i.toNat + (5 : Fin 16).val - 1 ≤ 0xFFF ∧ (after (prog 0xD015)).reg 15 = 0 ∧
    (after (after (withBytes 0x202 [0xD0, 0x15] (prog 0xD015)))).disp = State.reset.disp := by decide

theorem test_witness_ReadDelayTimer : aboutToRun (.ldVxDT 4) (prog 0xF407) := ⟨by decide, rfl⟩

theorem test_witness_SetTimers :
    aboutToRun (.ldDTVx 3) (prog 0xF315) ∧ aboutToRun (.ldSTVx 0) (prog 0xF018) ∧ exec .cls State.reset = .next State.reset :=
  ⟨⟨by decide, rfl⟩, ⟨by decide, rfl⟩, rfl⟩

theorem test_witness_SkipsOnKey :
    ((withRegs [(0, 15)] State.reset).reg 0).toNat ≤ 15 ∧ 15 < ((withRegs [(0, 16)] State.reset).reg 0).toNat := by decide

theorem test_witness_WaitForKey :
    (({ State.reset with key := 0x8000 } : State).key.getLsbD 15 = true ∧
      ∀ j, j < 15 → ({ State.reset with key := 0x8000 } : State).key.getLsbD j = false) ∧
    ({ State.reset with key := 1 } : State).key.getLsbD 0 = true ∧
    (∀ k, k < 16 → (prog 0xF30A).key.getLsbD k = false) ∧ aboutToRun (.ldVxK 3) (prog 0xF30A) :=
  ⟨⟨by decide, by decide⟩, by decide, by decide, ⟨by decide, rfl⟩⟩

theorem test_witness_StoreDecimalDigits :
    State.reset.mem.wf ∧ (0xFFD : Word).toNat + 2 ≤ 0xFFF ∧ 0xFFF < (0xFFE : Word).toNat + 2 := by decide

theorem test_witness_StoreRegisters_LoadRegisters_LoadRestoresStoredRegisters :
    State.reset.mem.wf ∧ (0xFF0 : Word).toNat + (15 : Fin 16).val ≤ 0xFFF ∧ 0xFFF < (0xFF1 : Word).toNat + (15 : Fin 16).val ∧
    (0xFFF : Word).toNat + (0 : Fin 16).val ≤ 0xFFF ∧ 0xFFF < (0x1000 : Word).toNat + (0 : Fin 16).val := by decide

/-- LD [I], V1 storing onto the next opcode. -/
def storeOverNext : State := withRegs [(0, 0x6A), (1, 0x2C)] { prog 0xF155 with i := 0x202 }

/-- LD B, V0 storing its last digit onto the first byte of the next opcode, at the last address where one can follow. -/
def digitOverNext : State := withRegs [(0, 0xEA)] (withBytes 0xFFC [0xF0, 0x33] { State.reset with pc := 0xFFC, i := 0xFFC })

theorem test_witness_StoredBytesAreFetchedNext :
    (storeOverNext.mem.wf ∧ aboutToRun (.storeRegs 1) storeOverNext ∧ preconditionFault (.storeRegs 1) storeOverNext = none ∧
      storeOverNext.pc.toNat ≤ 0xFFC ∧ (after (after storeOverNext)).reg 10 = 0x2C) ∧
    (digitOverNext.mem.wf ∧ aboutToRun (.ldB 0) digitOverNext ∧ preconditionFault (.ldB 0) digitOverNext = none ∧
      digitOverNext.pc.toNat ≤ 0xFFC ∧ opcodeAtPC (after digitOverNext) = 0x0400) :=
  ⟨⟨by decide, ⟨by decide, rfl⟩, rfl, by decide, by decide⟩, ⟨by decide, ⟨by decide, rfl⟩, rfl, by decide, by decide⟩⟩

theorem test_witness_LoadCopiesImage :
    State.reset.mem.wf ∧ (List.replicate 3584 (1 : Byte)).length ≤ 3584 ∧ 3584 < (List.replicate 3585 (1 : Byte)).length := by
  refine ⟨by decide, Nat.le_of_eq List.length_replicate, ?_⟩
  rw [List.length_replicate]
  decide

theorem test_witness_SetInputReplacesKeypad :
    (List.replicate 16 true).length = 16 ∧ (List.replicate 15 true).length ≠ 16 ∧ (List.replicate 17 true).length ≠ 16 := by
  decide

theorem test_witness_ClearDisplay_ReadFrameShowsGrid :
    (List.replicate 2048 (7 : Byte)).length = 2048 ∧ (List.replicate 2047 (7 : Byte)).length ≠ 2048 ∧
    (List.replicate 2049 (7 : Byte)).length ≠ 2048 := by
  refine ⟨?_, ?_, ?_⟩ <;> rw [List.length_replicate] <;> decide

theorem test_witness_FailedOperationsChangeNothing :
    (perform (.setInput [true]) State.reset).1 = .failed .size ∧ (perform (.readFrame []) State.reset).1 = .failed .size ∧
    (perform (.setState []) State.reset).1 = .failed .size := by decide

theorem test_witness_BlobsAreEqualIffMachinesAre_RestoreAfterSave :
    storeAtEnd.mem.wf ∧ (redrawn storeAtEnd).mem.wf ∧ sameMachine storeAtEnd (redrawn storeAtEnd) := by decide

theorem test_witness_SaveAfterRestore :
    (List.replicate 4409 (0xFF : Byte)).length = 4409 ∧ (List.replicate 4408 (0xFF : Byte)).length ≠ 4409 ∧
    (List.replicate 4410 (0xFF : Byte)).length ≠ 4409 := by
  refine ⟨?_, ?_, ?_⟩ <;> rw [List.length_replicate] <;> decide

theorem test_witness_HaltedStatesStayHalted :
    haltedAt 0x200 (prog 0x1200) ∧ (prog 0x1200).dt = 0 ∧ (prog 0x1200).st = 0 ∧ (prog 0x1200).result = none :=
  ⟨⟨by decide, by decide, rfl⟩, rfl, rfl, rfl⟩

end Sys2Proof.Tests
end

/-! The keypad as an input (10_state.md R29): 31 instructions commute with replacing it, so none of them reads or writes it. -/

section
namespace Sys2Proof.Machine

/-- `key <- k`: the state another keypad would have made. -/
def State.setKey (k : BitVec 16) (s : State) : State := { s with key := k }

@[simp] theorem setKey_key (k : BitVec 16) (s : State) : (s.setKey k).key = k := rfl

theorem skipIf_setKey (c : Bool) (k : BitVec 16) (s : State) : skipIf c (s.setKey k) = (skipIf c s).setKey k := by
  cases c <;> rfl

theorem push_setKey (op w : Word) (k : BitVec 16) (s : State) :
    push op w (s.setKey k) = (push op w s).map (State.setKey k) := by
  rcases push_cases op w s with ⟨h, e⟩ | ⟨h, e⟩ <;> rw [e]
  · exact dif_pos h
  · exact dif_neg (Nat.not_lt.mpr h)

theorem pop_setKey (op : Word) (k : BitVec 16) (s : State) :
    pop op (s.setKey k) = (pop op s).map (Prod.map id (State.setKey k)) := by
  rcases pop_cases op s with ⟨h, e⟩ | ⟨h, e⟩ <;> rw [e]
  · exact dif_pos h
  · exact dif_neg h

/-- A read of memory gives the same bytes: `id` is what replacing the keypad does to them. -/
theorem loadBytes_setKey (base : Word) (n : Nat) (k : BitVec 16) (s : State) :
    loadBytes base n (s.setKey k) = (loadBytes base n s).map id := by
  rcases loadBytes_cases base n s with ⟨h, e⟩ | ⟨h, e⟩ <;> rw [e]
  · exact if_pos h
  · exact if_neg (by simp [h])

theorem storeBytes_setKey (base : Word) (bs : List Byte) (k : BitVec 16) (s : State) :
    storeBytes base bs (s.setKey k) = (storeBytes base bs s).map (State.setKey k) := by
  rcases storeBytes_cases base bs s with ⟨h, e⟩ | ⟨h, e⟩ <;> rw [e]
  · exact if_pos h
  · exact if_neg (by simp [h])

/-- A meaning whose checked result commutes with replacing the keypad does so to its end, faults included. -/
theorem settle_setKey {s t : State} {k : BitVec 16} {r r' : Except Fault State} (hr : r' = r.map (State.setKey k))
    (h : settle s r = .next t) : settle (s.setKey k) r' = .next (t.setKey k) := by
  subst hr
  cases r <;> cases h <;> rfl

/-- The same for an operation that hands a value on to the rest of the meaning, where `lift` is what replacing the keypad does
to that value. -/
theorem settle_map_setKey {α : Type} {s t : State} {k : BitVec 16} {r r' : Except Fault α} {g g' : α → State} (lift : α → α)
    (hr : r' = r.map lift) (hg : ∀ a, g' (lift a) = (g a).setKey k) (h : settle s (r.map g) = .next t) :
    settle (s.setKey k) (r'.map g') = .next (t.setKey k) := by
  refine settle_setKey ?_ h
  subst hr
  cases r with
  | ok a => exact congrArg Except.ok (hg a)
  | error f => rfl

/-- SKP, SKNP and LD Vx, K: the instructions whose meaning looks at the keypad. -/
def readsKey : Instr → Prop
  | .skp _ | .sknp _ | .ldVxK _ => True
  | _ => False

/-- An instruction that does not look at the keypad does the same with any keypad and hands that keypad on. -/
theorem exec_setKey {i : Instr} {s t : State} (k : BitVec 16) (hi : ¬ readsKey i) (h : exec i s = .next t) :
    exec i (s.setKey k) = .next (t.setKey k) := by
  cases i with
  | skp | sknp | ldVxK => exact absurd trivial hi
  | seByte | sneByte | seReg | sneReg =>
    cases h
    exact congrArg Host.Outcome.next (skipIf_setKey _ _ _)
  | ret => exact settle_map_setKey _ (pop_setKey _ k s) (fun _ => rfl) h
  | callAddr nnn => exact settle_map_setKey _ (push_setKey _ s.pc k s) (fun _ => rfl) h
  | drw x y n => exact settle_map_setKey _ (loadBytes_setKey _ _ k s) (fun _ => rfl) h
  | loadRegs x => exact settle_map_setKey _ (loadBytes_setKey _ _ k s) (fun _ => rfl) h
  | ldB x => exact settle_setKey (storeBytes_setKey _ _ k s) h
  | storeRegs x => exact settle_setKey (storeBytes_setKey _ _ k s) h
  | _ =>
    cases h
    rfl

/-- A checked skip on the keypad leaves the keypad, whether it skips, goes on or faults. -/
theorem settle_skipIf_key {α : Type} {s t : State} {r : Except Fault α} {c : α → Bool}
    (h : settle s (r.map fun a => skipIf (c a) s) = .next t) : t.key = s.key := by
  cases r <;> cases h <;> simp

/-- No instruction writes the keypad: the three that read it by their meanings, any other because it hands on every keypad,
this one included. -/
theorem exec_key {i : Instr} {s t : State} (h : exec i s = .next t) : t.key = s.key := by
  by_cases hi : readsKey i
  · cases i with
    | skp | sknp => exact settle_skipIf_key h
    | ldVxK x =>
      change execLdVxK x s = .next t at h
      unfold execLdVxK at h
      split at h <;> cases h <;> rfl
    | _ => exact hi.elim
  · have hk : exec i s = .next (t.setKey s.key) := exec_setKey s.key hi h
    have ht : t = t.setKey s.key := Host.Outcome.next.inj (h.symm.trans hk)
    rw [ht, setKey_key]

/-- No step writes the keypad. -/
theorem step_key {s t : State} (h : step s = .next t) : t.key = s.key := by
  rcases step_cases h with ⟨-, rfl⟩ | ⟨op, r, -, -, -, rfl⟩ | ⟨op, i, u, -, -, -, he, rfl⟩
  · rfl
  · rfl
  · rw [endStep_key, exec_key he, advance_key]

/-! ### The state after a move of the host -/

@[simp] theorem answerBytes_snd (s : State) (r : Except HostError (List Byte)) : (answerBytes s r).2 = s := by
  cases r <;> rfl

@[simp] theorem answerStep_next_snd (s t : State) : (answerStep s (.next t)).2 = t := by
  simp only [answerStep]
  split <;> rfl

theorem perform_load_key (bytes : List Byte) (s : State) : (perform (.load bytes) s).2.key = s.key := by
  change (answer s (load bytes s)).2.key = s.key
  unfold load
  split <;> rfl

theorem perform_step_key (s : State) : (perform .step s).2.key = s.key := by
  change (answerStep s (step s)).2.key = s.key
  cases h : step s with
  | next t => rw [answerStep_next_snd, step_key h]
  | fault | refused => rfl

end Sys2Proof.Machine

namespace Sys2Proof
open Machine

/-- Settles O23: the instructions by `exec_key` and `exec_setKey`, the host's operations one by one. -/
theorem keypadIsReadOnlyToInstructions : Obligations.KeypadIsReadOnlyToInstructions := by
  unfold Obligations.KeypadIsReadOnlyToInstructions
  refine ⟨fun _ _ _ => exec_key, fun _ _ => step_key, fun c s hc => ?_, fun i s t k hi => exec_setKey k ?_, ?_⟩
  · cases c with
    | init => exact .inl rfl
    | setInput keys => exact .inr (.inl ⟨keys, rfl⟩)
    | setState bytes => exact .inr (.inr ⟨bytes, rfl⟩)
    | load bytes => exact absurd (perform_load_key bytes s) hc
    | step => exact absurd (perform_step_key s) hc
    | readFrame buffer => exact absurd (congrArg State.key (answerBytes_snd s (readFrame buffer s))) hc
    | getState => exact absurd rfl hc
  · intro hr
    cases i with
    | skp x => exact (hi x).1 rfl
    | sknp x => exact (hi x).2.1 rfl
    | ldVxK x => exact (hi x).2.2 rfl
    | _ => exact hr
  · exact fun _ _ => BitVec.getLsbD_zero

end Sys2Proof
end

/-! What `init` leaves (10_state.md R40). -/

section
namespace Sys2Proof.Machine

/-- Above the font, reset memory is zero (10_state.md R31). -/
theorem initialByte_above_font {a : Nat} (h : 80 ≤ a) : initialByte a = 0 := List.getD_eq_default font 0 h

@[simp] theorem initMachine_reg (s : State) (r : Fin 16) : (initMachine s).reg r = 0 := by
  rw [reg_eq, initMachine_v]
  exact Vector.getElem_replicate _

theorem initMachine_read (s : State) (a : Nat) : (initMachine s).mem.read a = initialByte a := rfl

/-- `init` does nothing to a machine that is already reset. -/
theorem initMachine_reset : initMachine State.reset = State.reset := rfl

end Sys2Proof.Machine

namespace Sys2Proof
open Machine

/-- Settles O14: the reset state is itself what `init` leaves, so both are `initMachine` of some state; then field by field. -/
theorem initLeavesResetValues : Obligations.InitLeavesResetValues := by
  unfold Obligations.InitLeavesResetValues
  intro s t ht
  obtain ⟨u, rfl⟩ : ∃ u, t = initMachine u :=
    ht.elim (fun h => ⟨State.reset, h.trans initMachine_reset.symm⟩) fun h => ⟨s, h⟩
  refine ⟨fun _ _ => rfl, fun a ha _ => ?_, initMachine_reg u, rfl, rfl, fun k => ?_, rfl, rfl, rfl,
    fun px py _ _ => ?_, fun k _ => ?_, rfl, rfl⟩
  · rw [initMachine_read, initialByte_above_font ha]
  · exact Vector.getElem_replicate k.isLt
  · exact cell_clear px py
  · exact BitVec.getLsbD_zero

end Sys2Proof
end

/-! The end of a step that does not fault: its instruction has run, and both timers tick (40_step_cycle.md R95). -/

section
namespace Sys2Proof.Machine
open Claims

/-- What a fetch gives is the opcode at `PC`, from a `PC` where both its bytes are in memory. -/
theorem fetch_ok {s : State} {op : Word} (h : fetch s = .ok op) : s.pc.toNat ≤ 0xFFE ∧ op = opcodeAtPC s := by
  rcases fetch_cases s with ⟨hp, e⟩ | ⟨-, e⟩ <;> rw [e] at h <;> cases h
  exact ⟨hp, rfl⟩

/-- A step that does not fault has run the instruction at `PC` and then ticked. -/
theorem step_cases_of_result_none {s t : State} (h : step s = .next t) (ht : t.result = none) :
    ∃ i u, aboutToRun i s ∧ exec i (advance s) = .next u ∧ t = tick u := by
  rcases step_cases h with ⟨-, rfl⟩ | ⟨op, r, -, -, -, rfl⟩ | ⟨op, i, u, -, hf, hd, he, rfl⟩
  · exact nomatch ht
  · exact nomatch ht
  · obtain ⟨hp, rfl⟩ := fetch_ok hf
    have hu : u.result = none := (endStep_result u).symm.trans ht
    exact ⟨i, u, ⟨hp, hd⟩, he, endStep_ok hu⟩

/-- The tick writes the two timers and nothing else. -/
theorem tick_frame (s : State) : unchangedBut [.dt, .st] s (tick s) := by
  simp [unchangedBut]

end Sys2Proof.Machine

namespace Sys2Proof
open Machine

/-- Settles O8: such a step ends in the tick of what its instruction left. -/
theorem timersTickOncePerStep : Obligations.TimersTickOncePerStep := by
  unfold Obligations.TimersTickOncePerStep
  intro s t h ht
  obtain ⟨i, u, hi, he, rfl⟩ := step_cases_of_result_none h ht
  exact ⟨i, u, hi, he, countDown_toNat u.dt, countDown_toNat u.st, tick_frame u⟩

end Sys2Proof
end

/-! What an instruction leaves in `PC` when it does not fault, as it runs inside a step (42_control_flow.md R120). -/

section
namespace Sys2Proof.Machine
open Claims

/-! ### A meaning that has not faulted -/

/-- A checked meaning that leaves no fault has passed its check. -/
theorem settle_ok_of_result_none {s t : State} {r : Except Fault State} (h : settle s r = .next t)
    (ht : t.result = none) : r = .ok t := by
  rcases settle_cases h with hr | ⟨f, -, rfl⟩
  · exact hr
  · exact nomatch ht

/-- The same where the checked operation hands a value on to the rest of the meaning. -/
theorem settle_map_ok_of_result_none {α : Type} {s t : State} {r : Except Fault α} {g : α → State}
    (h : settle s (r.map g) = .next t) (ht : t.result = none) : ∃ a, r = .ok a ∧ t = g a := by
  have hr := settle_ok_of_result_none h ht
  cases r with
  | ok a => exact ⟨a, rfl, (Except.ok.inj hr).symm⟩
  | error f => exact nomatch hr

/-- An instruction that leaves a fault where there was none has changed nothing else. -/
theorem exec_eq_takeFault {i : Instr} {s t : State} {f : Fault} (h : exec i s = .next t) (hs : s.result = none)
    (ht : t.result = some f) : t = takeFault f s := by
  rcases exec_cases i s with ⟨u, he, hu, -⟩ | ⟨g, he⟩ <;> obtain rfl := Host.Outcome.next.inj (he.symm.trans h)
  · exact nomatch hs.symm.trans (hu.symm.trans ht)
  · rw [takeFault_result, Option.some.injEq] at ht
    rw [ht]

/-! ### The numbers in the table -/

/-- The advance from an address that can be fetched from does not wrap. -/
theorem advance_pc_toNat {s : State} (hp : s.pc.toNat ≤ 0xFFE) : (advance s).pc.toNat = s.pc.toNat + 2 := by
  rw [advance_pc]
  bv_omega

/-- A skip lands two bytes further on iff its condition holds. -/
theorem skipIf_advance_pc_toNat {s : State} (hp : s.pc.toNat ≤ 0xFFE) (c : Bool) :
    (skipIf c (advance s)).pc.toNat = if c then s.pc.toNat + 4 else s.pc.toNat + 2 := by
  have h2 := advance_pc_toNat hp
  rw [skipIf_pc]
  split
  · bv_omega
  · exact h2

/-- A skip on the opposite of a condition. -/
theorem skipIf_not_advance_pc_toNat {s : State} (hp : s.pc.toNat ≤ 0xFFE) (c : Bool) :
    (skipIf (!c) (advance s)).pc.toNat = if c then s.pc.toNat + 2 else s.pc.toNat + 4 := by
  rw [skipIf_advance_pc_toNat hp]
  cases c <;> rfl

/-- An address field is its own value as a `PC`. -/
theorem zextAddr_toNat (nnn : BitVec 12) : (zextAddr nnn).toNat = nnn.toNat :=
  BitVec.toNat_setWidth_of_le (by decide)

/-- The target of JP V0, addr never overflows (42_control_flow.md R123). -/
theorem zextAddr_add_zext16_toNat (nnn : BitVec 12) (b : Byte) :
    (zextAddr nnn + zext16 b).toNat = nnn.toNat + b.toNat := by
  bv_omega

/-! ### What the operations that can fail or wait leave in `PC` -/

/-- CALL without a fault: the `PC` it finds goes into the free slot at `SP`. -/
theorem exec_callAddr_ok {nnn : BitVec 12} {s t : State} (h : exec (.callAddr nnn) s = .next t) (ht : t.result = none) :
    ∃ hs : s.sp.toNat < 16,
      t = { s with stack := s.stack.set s.sp.toNat s.pc, sp := s.sp + 1, pc := zextAddr nnn } := by
  obtain ⟨u, hu, rfl⟩ := settle_map_ok_of_result_none h ht
  rcases push_cases (encode (.callAddr nnn)) s.pc s with ⟨hs, e⟩ | ⟨-, e⟩ <;> cases e.symm.trans hu
  exact ⟨hs, rfl⟩

/-- RET without a fault: the slot below `SP` becomes `PC`. -/
theorem exec_ret_ok {s t : State} (h : exec .ret s = .next t) (ht : t.result = none) :
    ∃ _ : 1 ≤ s.sp.toNat ∧ s.sp.toNat ≤ 16, t = { s with sp := s.sp - 1, pc := s.stack[s.sp.toNat - 1] } := by
  obtain ⟨u, hu, rfl⟩ := settle_map_ok_of_result_none h ht
  rcases pop_cases (encode .ret) s with ⟨hs, e⟩ | ⟨-, e⟩ <;> cases e.symm.trans hu
  exact ⟨hs, rfl⟩

/-- A keypad skip without a fault looks at the key that `V[x]` numbers. -/
theorem settle_keyOperand_ok {op : Word} {vx : Byte} {s t : State} {g : Nat → State}
    (h : settle s ((keyOperand op vx).map g) = .next t) (ht : t.result = none) : t = g vx.toNat := by
  obtain ⟨k, hk, rfl⟩ := settle_map_ok_of_result_none h ht
  rcases keyOperand_cases op vx with ⟨-, e⟩ | ⟨-, e⟩ <;> cases e.symm.trans hk
  rfl

/-- No key is down iff the keypad is zero. -/
theorem firstKeyDown_eq_none_iff {s : State} : firstKeyDown s = none ↔ s.key = 0 := by
  rw [firstKeyDown_none]
  constructor
  · intro h
    exact BitVec.eq_of_getLsbD_eq fun k hk => (h k hk).trans BitVec.getLsbD_zero.symm
  · intro h k _
    rw [keyDown, h]
    exact BitVec.getLsbD_zero

/-- LD Vx, K steps `PC` back iff no key is down. -/
theorem exec_ldVxK_pc {x : Fin 16} {s t : State} (h : exec (.ldVxK x) s = .next t) :
    t.pc = if s.key = 0 then s.pc - 2 else s.pc := by
  change execLdVxK x s = .next t at h
  unfold execLdVxK at h
  split at h <;> cases h
  case h_1 k hk =>
    have hkey : s.key ≠ 0 := fun hz => nomatch hk.symm.trans (firstKeyDown_eq_none_iff.mpr hz)
    rw [if_neg hkey, setReg_pc]
  case h_2 hk => rw [if_pos (firstKeyDown_eq_none_iff.mp hk), setPc_pc]

/-- A store leaves `PC`. -/
theorem storeBytes_pc {base : Word} {bs : List Byte} {s t : State} (h : storeBytes base bs s = .ok t) : t.pc = s.pc := by
  rcases storeBytes_cases base bs s with ⟨-, e⟩ | ⟨-, e⟩ <;> cases e.symm.trans h
  rfl

/-! ### The table of R120 -/

/-- An instruction run where a step runs it leaves `PC` as the table of R120 says, if it does not fault. -/
theorem exec_advance_pc {i : Instr} {s u : State} (hp : s.pc.toNat ≤ 0xFFE) (h : exec i (advance s) = .next u)
    (hu : u.result = none) : u.pc.toNat = pcAfter i s := by
  have hnext := advance_pc_toNat hp
  cases i with
  | jpAddr nnn =>
    cases h
    exact zextAddr_toNat nnn
  | jpV0 nnn =>
    cases h
    exact zextAddr_add_zext16_toNat nnn (s.reg 0)
  | callAddr nnn =>
    obtain ⟨-, rfl⟩ := exec_callAddr_ok h hu
    exact zextAddr_toNat nnn
  | ret =>
    obtain ⟨⟨h1, h16⟩, rfl⟩ := exec_ret_ok h hu
    rw [advance_sp] at h1 h16
    have hlt : s.sp.toNat - 1 < 16 := by omega
    simp [pcAfter, List.getD, hlt]
  | seByte | seReg | sneByte | sneReg =>
    cases h
    rw [skipIf_advance_pc_toNat hp]
    simp [pcAfter]
  | skp x =>
    rw [settle_keyOperand_ok h hu]
    exact skipIf_advance_pc_toNat hp _
  | sknp x =>
    rw [settle_keyOperand_ok h hu]
    exact skipIf_not_advance_pc_toNat hp _
  | ldVxK x =>
    rw [exec_ldVxK_pc h, advance_key]
    unfold pcAfter
    split
    · bv_omega
    · exact hnext
  | drw | loadRegs =>
    obtain ⟨_, -, rfl⟩ := settle_map_ok_of_result_none h hu
    exact hnext
  | ldB | storeRegs =>
    rw [storeBytes_pc (settle_ok_of_result_none h hu)]
    exact hnext
  | _ =>
    cases h
    exact hnext

/-- A step that does not fault is the run of the instruction it is about to run, and the tick. -/
theorem step_of_aboutToRun {i : Instr} {s t : State} (h : step s = .next t) (ht : t.result = none)
    (hi : aboutToRun i s) : ∃ u, exec i (advance s) = .next u ∧ u.result = none ∧ t = tick u := by
  obtain ⟨-, hd⟩ := hi
  obtain ⟨j, u, ⟨-, hj⟩, he, rfl⟩ := step_cases_of_result_none h ht
  obtain rfl : i = j := Except.ok.inj (hd.symm.trans hj)
  exact ⟨u, he, ht, rfl⟩

/-- A fetch that faults leaves `PC` where it is (40_step_cycle.md R91). -/
theorem step_pc_of_fetch_fault {s t : State} (h : step s = .next t) (hp : 0xFFE < s.pc.toNat) : t.pc = s.pc := by
  rcases step_cases h with ⟨-, rfl⟩ | ⟨_, _, hle, -⟩ | ⟨_, _, _, hle, -⟩
  · exact takeFault_pc s _
  · exact absurd hp (Nat.not_lt.mpr hle)
  · exact absurd hp (Nat.not_lt.mpr hle)

/-- Any other fault leaves `PC` past the instruction (40_step_cycle.md R92). -/
theorem step_pc_of_later_fault {s t : State} {f : Fault} (h : step s = .next t) (hp : s.pc.toNat ≤ 0xFFE)
    (ht : t.result = some f) : t.pc.toNat = s.pc.toNat + 2 := by
  have hnext := advance_pc_toNat hp
  rcases step_cases h with ⟨hgt, -⟩ | ⟨op, r, -, -, -, rfl⟩ | ⟨op, i, u, -, -, -, he, rfl⟩
  · exact absurd hgt (Nat.not_lt.mpr hp)
  · exact hnext
  · rw [endStep_result] at ht
    rw [endStep_pc, exec_eq_takeFault he (advance_result s) ht]
    exact hnext

/-- The jump's frame: a new `PC` and nothing else. -/
theorem setPc_frame (s : State) (w : Word) : unchangedBut [.pc] s (s.setPc w) := by
  simp [unchangedBut]

end Sys2Proof.Machine

namespace Sys2Proof
open Machine

/-- The opcodes 1nnn are JP addr (30_encoding.md R76). -/
theorem decodeOp_group1 (nnn : BitVec 12) : decodeOp (formatNNN 0x1#4 nnn) = .ok (.jpAddr nnn) := by
  simp [decodeOp]

/-- Settles O13: the two faulting clauses by where the step stopped, the others by the instruction it ran. -/
theorem pcAfterEveryStep : Obligations.PcAfterEveryStep := by
  unfold Obligations.PcAfterEveryStep
  intro s t h
  refine ⟨step_pc_of_fetch_fault h, fun hp ⟨f, hf⟩ => step_pc_of_later_fault h hp hf, fun i hi ht => ?_, fun nnn hi ht => ?_⟩
  · obtain ⟨u, he, hu, rfl⟩ := step_of_aboutToRun h ht hi
    rw [tick_pc]
    exact exec_advance_pc hi.1 he hu
  · obtain ⟨u, he, hu, rfl⟩ := step_of_aboutToRun h ht hi
    obtain ⟨hs, rfl⟩ := exec_callAddr_ok he hu
    rw [advance_sp] at hs
    simpa [List.getD, hs] using advance_pc_toNat hi.1

/-- Settles O31: the meaning is one write of `PC`. -/
theorem jumpSetsPc : Obligations.JumpSetsPc := by
  unfold Obligations.JumpSetsPc
  exact fun nnn s => ⟨decodeOp_group1 nnn, s.setPc (zextAddr nnn), rfl, zextAddr_toNat nnn, setPc_frame s _⟩

end Sys2Proof
end

/-! CLS and the frame the host reads after it (44_display.md R141, 47_host_operations.md R189). -/

section
namespace Sys2Proof.Machine
open Claims

@[simp] theorem length_frame (s : State) : (frame s).length = 2048 := by
  simp [frame]

/-- A buffer of the right length is filled with the frame. -/
theorem readFrame_of_length {buffer : List Byte} (h : buffer.length = 2048) (s : State) :
    readFrame buffer s = .ok (frame s) :=
  if_neg (not_not_intro h)

/-- Where no cell is lit, every byte of the frame is zero. -/
theorem eq_zero_of_mem_frame {s : State} (hoff : ∀ px py, s.disp.cell px py = false) {b : Byte} (hb : b ∈ frame s) :
    b = 0 := by
  obtain ⟨c, -, rfl⟩ := List.mem_map.mp hb
  rw [hoff]
  rfl

/-- Writing the grid changes nothing else. -/
theorem setDisp_frame (s : State) (d : Grid) : unchangedBut [.disp] s (s.setDisp d) := by
  simp [unchangedBut]

end Sys2Proof.Machine

namespace Sys2Proof
open Machine

/-- Settles O38: the meaning is one write of the cleared grid, whose cells are all off, and so is the frame of it. -/
theorem clearDisplay : Obligations.ClearDisplay := by
  unfold Obligations.ClearDisplay
  refine ⟨rfl, fun s => ⟨s.setDisp (Vector.replicate 32 0), rfl, fun px py _ _ => cell_clear px py, fun buffer hlen => ?_,
    setDisp_frame s _⟩⟩
  exact ⟨_, readFrame_of_length hlen _, length_frame _, fun _ => eq_zero_of_mem_frame cell_clear⟩

end Sys2Proof
end

/-! The timer instructions, inside their step and alone, and the sound timer as an output (45_timers_input.md R150 to R152):
33 instructions commute with replacing ST, and the one that is left writes it, so none reads it. -/

section
namespace Sys2Proof.Machine
open Claims

/-! ### Frames -/

/-- Writing one V register changes nothing else. -/
theorem setReg_frame (s : State) (x : Fin 16) (b : Byte) : unchangedBut [.v] s (s.setReg x b) := by
  simp [unchangedBut]

/-- Writing the delay timer changes nothing else. -/
theorem setDT_frame (s : State) (b : Byte) : unchangedBut [.dt] s (s.setDT b) := by
  simp [unchangedBut]

/-- Writing the sound timer changes nothing else. -/
theorem setST_frame (s : State) (b : Byte) : unchangedBut [.st] s (s.setST b) := by
  simp [unchangedBut]

/-! ### The step of an instruction that does not fault -/

/-- Where both its bytes are in memory, the opcode at `PC` is what a fetch gives. -/
theorem fetch_of_pc_le {s : State} (hp : s.pc.toNat ≤ 0xFFE) : fetch s = .ok (opcodeAtPC s) := by
  rcases fetch_cases s with ⟨-, e⟩ | ⟨hgt, -⟩
  · exact e
  · exact absurd hgt (Nat.not_lt.mpr hp)

/-- A step about to run an instruction that does not fault ends in the tick of what the instruction leaves. -/
theorem step_eq_tick {i : Instr} {s u : State} (hi : aboutToRun i s) (he : exec i (advance s) = .next u)
    (hu : u.result = none) : step s = .next (tick u) := by
  obtain ⟨hp, hd⟩ := hi
  simp only [step, fetch_of_pc_le hp, hd, he, endStep_ok hu]

/-! ### Another value in ST -/

/-- A meaning whose checked result commutes with replacing ST does so to its end, faults included. -/
theorem settle_setST {s t : State} {b : Byte} {r r' : Except Fault State} (hr : r' = r.map (State.setST b))
    (h : settle s r = .next t) : settle (s.setST b) r' = .next (t.setST b) := by
  subst hr
  cases r <;> cases h <;> rfl

/-- A meaning whose check does not depend on ST commutes with replacing ST if what follows the check does. -/
theorem settle_map_setST {α : Type} {s t : State} {b : Byte} {r : Except Fault α} {g g' : α → State}
    (hg : ∀ a, g' a = (g a).setST b) (h : settle s (r.map g) = .next t) :
    settle (s.setST b) (r.map g') = .next (t.setST b) := by
  cases r <;> cases h
  · rfl
  · exact congrArg Host.Outcome.next (hg _)

theorem skipIf_setST (c : Bool) (b : Byte) (s : State) : skipIf c (s.setST b) = (skipIf c s).setST b := by
  cases c <;> rfl

theorem storeBytes_setST (base : Word) (bs : List Byte) (b : Byte) (s : State) :
    storeBytes base bs (s.setST b) = (storeBytes base bs s).map (State.setST b) := by
  unfold storeBytes
  split <;> rfl

/-- CALL's push, and the jump after it. -/
theorem push_map_setPc_setST (op w target : Word) (b : Byte) (s : State) :
    (push op w (s.setST b)).map (State.setPc target) = ((push op w s).map (State.setPc target)).map (State.setST b) := by
  rcases push_cases op w s with ⟨h, e⟩ | ⟨h, e⟩ <;> rw [e]
  · exact congrArg (Except.map _) (dif_pos h)
  · exact congrArg (Except.map _) (dif_neg (Nat.not_lt.mpr h))

/-- RET's pop, and the jump after it. -/
theorem pop_map_setPc_setST (op : Word) (b : Byte) (s : State) :
    ((pop op (s.setST b)).map fun r => r.2.setPc r.1) = ((pop op s).map fun r => r.2.setPc r.1).map (State.setST b) := by
  rcases pop_cases op s with ⟨h, e⟩ | ⟨h, e⟩ <;> rw [e]
  · exact congrArg (Except.map _) (dif_pos h)
  · exact congrArg (Except.map _) (dif_neg h)

/-- LD Vx, K finds the same key down, or none, and goes on from there. -/
theorem execLdVxK_setST {x : Fin 16} {s t : State} (b : Byte) (h : execLdVxK x s = .next t) :
    execLdVxK x (s.setST b) = .next (t.setST b) := by
  have hkey : firstKeyDown (s.setST b) = firstKeyDown s := rfl
  unfold execLdVxK at h ⊢
  rw [hkey]
  generalize firstKeyDown s = found at h ⊢
  cases found <;> cases h <;> rfl

/-- LD ST, Vx leaves the same state whatever ST held. -/
theorem exec_ldSTVx_setST (x : Fin 16) (b : Byte) (s : State) : exec (.ldSTVx x) (s.setST b) = exec (.ldSTVx x) s := rfl

/-- Any other instruction does the same with another value in ST and hands that value on. -/
theorem exec_setST {i : Instr} {s t : State} (b : Byte) (hi : ∀ x, i ≠ .ldSTVx x) (h : exec i s = .next t) :
    exec i (s.setST b) = .next (t.setST b) := by
  cases i with
  | ldSTVx x => exact absurd rfl (hi x)
  | seByte | sneByte | seReg | sneReg =>
    cases h
    exact congrArg Host.Outcome.next (skipIf_setST _ _ _)
  | skp | sknp => exact settle_map_setST (fun _ => skipIf_setST _ _ _) h
  | drw | loadRegs => exact settle_map_setST (fun _ => rfl) h
  | ldB | storeRegs => exact settle_setST (storeBytes_setST _ _ b s) h
  | callAddr nnn => exact settle_setST (push_map_setPc_setST _ s.pc (zextAddr nnn) b s) h
  | ret => exact settle_setST (pop_map_setPc_setST _ b s) h
  | ldVxK x => exact execLdVxK_setST b h
  | _ =>
    cases h
    rfl

/-- No instruction reads ST: with another value there, what it leaves is the same but for ST itself. -/
theorem exec_same_but_st {i : Instr} {s t : State} (b : Byte) (h : exec i s = .next t) :
    ∃ u, exec i (s.setST b) = .next u ∧ u.setST t.st = t := by
  by_cases hi : ∃ x, i = .ldSTVx x
  · obtain ⟨x, rfl⟩ := hi
    exact ⟨t, (exec_ldSTVx_setST x b s).trans h, rfl⟩
  · exact ⟨t.setST b, exec_setST b (fun x hx => hi ⟨x, hx⟩) h, rfl⟩

end Sys2Proof.Machine

namespace Sys2Proof
open Machine

/-- Group F is dispatched on the low byte (30_encoding.md R74). -/
theorem decodeOp_groupF (x : Fin 16) (kk : Byte) :
    decodeOp (formatXKK 0xF#4 x kk) = decodeGroupF (formatXKK 0xF#4 x kk) := by
  simp [decodeOp]

/-- The opcodes Fx07 are LD Vx, DT (30_encoding.md R76). -/
theorem decodeOp_ldVxDT (x : Fin 16) : decodeOp (formatXKK 0xF#4 x 0x07#8) = .ok (.ldVxDT x) := by
  simp [decodeOp_groupF, decodeGroupF]

/-- The opcodes Fx15 are LD DT, Vx (30_encoding.md R76). -/
theorem decodeOp_ldDTVx (x : Fin 16) : decodeOp (formatXKK 0xF#4 x 0x15#8) = .ok (.ldDTVx x) := by
  simp [decodeOp_groupF, decodeGroupF]

/-- The opcodes Fx18 are LD ST, Vx (30_encoding.md R76). -/
theorem decodeOp_ldSTVx (x : Fin 16) : decodeOp (formatXKK 0xF#4 x 0x18#8) = .ok (.ldSTVx x) := by
  simp [decodeOp_groupF, decodeGroupF]

/-- Settles O42: each meaning is one write of a timer, its step the tick of that, and no meaning reads ST. -/
theorem setTimers : Obligations.SetTimers := by
  unfold Obligations.SetTimers
  intro x s
  refine ⟨decodeOp_ldDTVx x, decodeOp_ldSTVx x, ⟨s.setDT (s.reg x), rfl, rfl, setDT_frame s _⟩,
    ⟨s.setST (s.reg x), rfl, rfl, setST_frame s _⟩, fun hi => ?_, fun hi => ?_, fun _ _ b => exec_same_but_st b,
    fun _ _ => rfl⟩
  · exact ⟨_, step_eq_tick hi rfl rfl, rfl, countDown_toNat (s.reg x)⟩
  · exact ⟨_, step_eq_tick hi rfl rfl, rfl, countDown_toNat (s.reg x)⟩

/-- Settles O41: the meaning is one write of `V[x]`, and DT ticks only after it. -/
theorem readDelayTimer : Obligations.ReadDelayTimer := by
  unfold Obligations.ReadDelayTimer
  intro x s
  refine ⟨decodeOp_ldVxDT x, ⟨s.setReg x s.dt, rfl, by simp, fun r hr => by simp [hr], setReg_frame s x _⟩, fun hi => ?_⟩
  exact ⟨_, step_eq_tick hi rfl rfl, rfl, by simp, countDown_toNat s.dt⟩

end Sys2Proof
end

/-! `load`, `set_input`, and the host operations that fail (47_host_operations.md R183, R184, R187). -/

section
namespace Sys2Proof.Machine
open Claims

/-! ### What each operation answers, by the length it is given -/

theorem load_of_length_le {bytes : List Byte} (h : bytes.length ≤ 3584) (s : State) :
    load bytes s = .ok { s with mem := s.mem.writeFrom 0x200 bytes } :=
  if_neg (Nat.not_lt.mpr h)

theorem load_of_lt_length {bytes : List Byte} (h : 3584 < bytes.length) (s : State) :
    load bytes s = .error .oversized :=
  if_pos h

theorem setInput_of_length {keys : List Bool} (h : keys.length = 16) (s : State) :
    setInput keys s = .ok (s.setKey (keypadOf keys)) :=
  if_neg (not_not_intro h)

theorem setInput_of_length_ne {keys : List Bool} (h : keys.length ≠ 16) (s : State) :
    setInput keys s = .error .size :=
  if_pos h

/-- Key `k` is element `k` of the sequence. -/
theorem keypadOf_getLsbD (keys : List Bool) {k : Nat} (hk : k < 16) :
    (keypadOf keys).getLsbD k = keys.getD k false := by
  simp [keypadOf, hk]

/-! ### Frames -/

/-- Writing memory changes nothing else. -/
theorem setMem_frame (s : State) (m : Memory) : unchangedBut [.mem] s { s with mem := m } := by
  simp [unchangedBut, State.reg]

/-- Writing the keypad changes nothing else. -/
theorem setKey_frame (s : State) (k : BitVec 16) : unchangedBut [.key] s (s.setKey k) := by
  simp [unchangedBut, State.setKey, State.reg]

/-! ### Failure -/

/-- An operation that answers an error leaves the state it was given. -/
theorem answer_snd_of_failed {s : State} {r : Except HostError State} {e : HostError} (h : (answer s r).1 = .failed e) :
    (answer s r).2 = s := by
  cases r with
  | ok t => exact nomatch h
  | error f => rfl

/-- A step answers `Ok` or a fault, never the error of a host operation. -/
theorem answerStep_fst_ne_failed (s : State) (o : Host.Outcome State Fault Refusal) (e : HostError) :
    (answerStep s o).1 ≠ .failed e := by
  cases o with
  | next t =>
    simp only [answerStep]
    split <;> exact Reply.noConfusion
  | fault | refused => exact Reply.noConfusion

end Sys2Proof.Machine

namespace Sys2Proof
open Machine

/-- Settles O51: an image that fits is one range write from 0x200, which ends inside memory. -/
theorem loadCopiesImage : Obligations.LoadCopiesImage := by
  unfold Obligations.LoadCopiesImage
  refine fun bytes s hwf => ⟨fun hlen => ?_, fun hlen => congrArg (answer s) (load_of_lt_length hlen s)⟩
  refine ⟨_, congrArg (answer s) (load_of_length_le hlen s), fun k hk => ?_, fun a => read_writeFrom_other bytes s.mem,
    setMem_frame s _⟩
  have hend : 0x200 + bytes.length ≤ 4096 := by omega
  simpa using read_writeFrom_same bytes hwf hend (Nat.le_add_right 0x200 k) (by omega)

/-- Settles O52: the operation is one write of the keypad. -/
theorem setInputReplacesKeypad : Obligations.SetInputReplacesKeypad := by
  unfold Obligations.SetInputReplacesKeypad
  refine fun keys s => ⟨fun hlen => ?_, fun hlen => congrArg (answer s) (setInput_of_length_ne hlen s)⟩
  exact ⟨_, congrArg (answer s) (setInput_of_length hlen s), fun _ => keypadOf_getLsbD keys, setKey_frame s _⟩

/-- Settles O54: by what each kind of operation answers. -/
theorem failedOperationsChangeNothing : Obligations.FailedOperationsChangeNothing := by
  unfold Obligations.FailedOperationsChangeNothing
  intro c s e h
  cases c with
  | load | setInput | setState => exact answer_snd_of_failed h
  | readFrame buffer => exact answerBytes_snd s _
  | step => exact absurd h (answerStep_fst_ne_failed s _ e)
  | init | getState => exact nomatch h

end Sys2Proof
end

/-! The blob of `get_state`, part by part (48_state_serializer.md R196, R197). -/

section
namespace Sys2Proof.Machine
open Safety

/-! ### Memories that read alike -/

/-- What a memory in rising order lists is what it reads. -/
theorem read_of_mem {m : Memory} (hm : m.Pairwise (fun p q => p.1 < q.1)) {c : Host.Cell} (hc : c ∈ m) :
    m.read c.1 = c.2 := by
  induction m with
  | nil => cases hc
  | cons d m ih =>
    rw [List.pairwise_cons] at hm
    rw [read_cons]
    rcases List.mem_cons.mp hc with rfl | hc
    · exact if_pos rfl
    · rw [if_neg (Nat.ne_of_gt (hm.1 c hc)), ih hm.2 hc]

/-- A byte that differs from its reset contents is listed. -/
theorem mem_of_read_ne {m : Memory} {a : Nat} (h : m.read a ≠ initialByte a) : (a, m.read a) ∈ m := by
  induction m with
  | nil => exact absurd rfl h
  | cons d m ih =>
    rw [read_cons] at h ⊢
    split at h
    case isTrue ha =>
      rw [if_pos ha, ha]
      exact List.mem_cons_self
    case isFalse ha =>
      rw [if_neg ha]
      exact List.mem_cons_of_mem _ (ih h)

/-- A memory in canonical form lists exactly the bytes of memory that differ from their reset contents. -/
theorem mem_iff_read {m : Memory} (hm : m.wf) {c : Host.Cell} :
    c ∈ m ↔ c.1 < 4096 ∧ c.2 ≠ initialByte c.1 ∧ m.read c.1 = c.2 := by
  refine ⟨fun hc => ⟨(hm.2 c hc).1, (hm.2 c hc).2, read_of_mem hm.1 hc⟩, fun ⟨_, hne, hr⟩ => ?_⟩
  have := mem_of_read_ne (hr.trans_ne hne)
  rwa [hr] at this

/-- Memories in canonical form are determined by what they read as. -/
theorem memory_ext {m m' : Memory} (hm : m.wf) (hm' : m'.wf) (h : ∀ a, a < 4096 → m.read a = m'.read a) : m = m' := by
  have hnodup : ∀ {l : Memory}, l.wf → l.Nodup := fun hl => hl.1.imp fun hlt => mt (congrArg Prod.fst) (Nat.ne_of_lt hlt)
  have hperm : m.Perm m' := by
    refine (List.perm_ext_iff_of_nodup (hnodup hm) (hnodup hm')).mpr fun c => ?_
    rw [mem_iff_read hm, mem_iff_read hm']
    refine and_congr_right fun hc => ?_
    rw [h c.1 hc]
  exact hperm.eq_of_pairwise (fun _ _ _ _ hlt hgt => absurd hlt (Nat.lt_asymm hgt)) hm.1 hm'.1

/-! ### Lists of parts -/

/-- Entry `k` of part `i` stands `k` places behind the parts before it. -/
theorem getD_flatten {α : Type} (parts : List (List α)) {i k n : Nat} (d : α) (hi : i < parts.length)
    (hk : k < parts[i].length) (hn : ((parts.map List.length).take i).sum = n) :
    parts.flatten.getD (n + k) d = parts[i].getD k d := by
  have hdrop : parts.flatten.drop n = parts[i] ++ (parts.drop (i + 1)).flatten := by
    rw [← hn, List.drop_sum_flatten, List.drop_eq_getElem_cons hi, List.flatten_cons]
  rw [← List.getD_append _ _ d k hk, ← hdrop, List.getD, List.getD, List.getElem?_drop]

/-- Where every element gives `n` entries, entry `n * k + j` of the whole is entry `j` of element `k`. -/
theorem getD_flatMap {α β : Type} {f : α → List β} {n : Nat} (hf : ∀ a, (f a).length = n) {l : List α} {k j : Nat} (d : β)
    (hk : k < l.length) (hj : j < n) : (l.flatMap f).getD (n * k + j) d = (f l[k]).getD j d := by
  have hlen : (l.map f).map List.length = List.replicate l.length n := by simp [hf, Function.comp_def]
  have hsum : (((l.map f).map List.length).take k).sum = n * k := by
    simp [hlen, Nat.min_eq_left (Nat.le_of_lt hk), Nat.mul_comm]
  rw [List.flatMap_def, getD_flatten (l.map f) d (by simpa using hk) (by simpa [hf] using hj) hsum, List.getElem_map]

/-! ### A word and a row as bytes -/

@[simp] theorem length_bigEndian (w : Word) : (bigEndian w).length = 2 := rfl

/-- Two bytes that are those of a word, high byte first, make up the word. -/
theorem append_eq_of_bigEndian {bs : List Byte} {n : Nat} {w : Word}
    (h : ∀ {k}, k < 2 → bs.getD (n + k) 0 = (bigEndian w).getD k 0) : bs.getD n 0 ++ bs.getD (n + 1) 0 = w := by
  have h0 : bs.getD n 0 = highByte w := h (by decide : 0 < 2)
  have h1 : bs.getD (n + 1) 0 = lowByte w := h (by decide : 1 < 2)
  rw [h0, h1]
  exact opcodeOfBytes_bytes w

/-- The eight bytes of a row in the display part of the blob, the cell of lower index in the lower bit (R198). -/
def rowBytes (row : BitVec 64) : List Byte := (List.range 8).map fun j => row.extractLsb' (8 * j) 8

@[simp] theorem length_rowBytes (row : BitVec 64) : (rowBytes row).length = 8 := by
  rw [rowBytes, List.length_map, List.length_range]

/-- Bit `j` of byte `k` of a row is the row's bit `8k + j`. -/
theorem rowBytes_getLsbD (row : BitVec 64) {k j : Nat} (hk : k < 8) (hj : j < 8) :
    ((rowBytes row).getD k 0).getLsbD j = row.getLsbD (8 * k + j) := by
  simp [rowBytes, List.getD, hk, hj]

/-! ### The parts of the blob -/

/-- The parts of the blob, in the order of R196; SP, DT and ST are one part of three bytes. -/
def blobParts (s : State) : List (List Byte) :=
  [s.mem.readFrom 0 4096, s.v.toList, bigEndian s.i, bigEndian s.pc, s.stack.toList.flatMap bigEndian,
    [s.sp, s.dt, s.st], s.disp.toList.flatMap rowBytes, bigEndian s.key]

/-- How many bytes each part has, whatever the state. -/
def blobPartLengths : List Nat := [4096, 16, 2, 2, 32, 3, 256, 2]

theorem map_length_blobParts (s : State) : (blobParts s).map List.length = blobPartLengths := by
  simp [blobParts, blobPartLengths, List.length_flatMap]

/-- The blob is its parts, one after the other. -/
theorem getState_eq_flatten (s : State) : getState s = (blobParts s).flatten := by
  simp only [getState, blobParts, List.flatten_cons, List.flatten_nil, List.append_nil, List.append_assoc]
  rfl

theorem length_getState (s : State) : (getState s).length = 4409 := by
  rw [getState_eq_flatten, List.length_flatten, map_length_blobParts]
  rfl

/-- Byte `k` of part `i` stands at `n + k` in the blob, where `n` is the length of the parts before it. -/
theorem getState_getD {s : State} (n i : Nat) {k : Nat} {part : List Byte} (hn : (blobPartLengths.take i).sum = n)
    (hpart : (blobParts s)[i]? = some part) (hk : k < part.length) :
    (getState s).getD (n + k) 0 = part.getD k 0 := by
  obtain ⟨hi, rfl⟩ := List.getElem?_eq_some_iff.mp hpart
  rw [getState_eq_flatten]
  exact getD_flatten _ 0 hi hk (by rw [map_length_blobParts, hn])

/-! ### The fields in the blob -/

theorem getState_mem (s : State) {a : Nat} (h : a < 4096) : (getState s).getD a 0 = s.mem.read a := by
  have hbyte := getState_getD 0 0 rfl (rfl : (blobParts s)[0]? = _) (by rwa [readFrom_length])
  rwa [readFrom_getD _ _ h, Nat.zero_add] at hbyte

theorem getState_reg (s : State) (r : Fin 16) : (getState s).getD (4096 + r.val) 0 = s.reg r := by
  rw [getState_getD 4096 1 rfl rfl (by simp)]
  simp [reg_eq]

theorem getState_i (s : State) : (getState s).getD 4112 0 ++ (getState s).getD 4113 0 = s.i :=
  append_eq_of_bigEndian (getState_getD 4112 2 rfl rfl)

theorem getState_pc (s : State) : (getState s).getD 4114 0 ++ (getState s).getD 4115 0 = s.pc :=
  append_eq_of_bigEndian (getState_getD 4114 3 rfl rfl)

theorem getState_stack (s : State) (k : Fin 16) :
    (getState s).getD (4116 + 2 * k.val) 0 ++ (getState s).getD (4117 + 2 * k.val) 0 = s.stack[k] := by
  rw [Nat.succ_add 4116]
  refine append_eq_of_bigEndian fun hj => ?_
  rw [Nat.add_assoc, getState_getD 4116 4 rfl rfl (by simp [List.length_flatMap]; omega),
    getD_flatMap length_bigEndian 0 (by simp) hj]
  simp

theorem getState_sp (s : State) : (getState s).getD 4148 0 = s.sp :=
  getState_getD 4148 5 (k := 0) rfl rfl (by decide : 0 < 3)

theorem getState_dt (s : State) : (getState s).getD 4149 0 = s.dt :=
  getState_getD 4148 5 (k := 1) rfl rfl (by decide : 1 < 3)

theorem getState_st (s : State) : (getState s).getD 4150 0 = s.st :=
  getState_getD 4148 5 (k := 2) rfl rfl (by decide : 2 < 3)

/-- Byte `c` of the display part is byte `c mod 8` of row `c div 8`. -/
theorem getState_disp (s : State) {c j : Nat} (hc : c < 256) (hj : j < 8) :
    ((getState s).getD (4151 + c) 0).getLsbD j = s.disp.cell ((8 * c + j) % 64) ((8 * c + j) / 64) := by
  have hrow : c / 8 < 32 := by omega
  have hbyte : (getState s).getD (4151 + c) 0 = (rowBytes s.disp[c / 8]).getD (c % 8) 0 := by
    rw [getState_getD 4151 6 rfl rfl (by simpa [List.length_flatMap] using hc)]
    have := getD_flatMap length_rowBytes 0 (l := s.disp.toList) (by simpa using hrow) (Nat.mod_lt c (by decide))
    simpa [Nat.div_add_mod] using this
  have hpx : (8 * c + j) % 64 = 8 * (c % 8) + j := by omega
  have hpy : (8 * c + j) / 64 = c / 8 := by omega
  rw [hbyte, rowBytes_getLsbD _ (Nat.mod_lt c (by decide)) hj, hpx, hpy, Grid.cell, dif_pos hrow]

theorem getState_key (s : State) : (getState s).getD 4407 0 ++ (getState s).getD 4408 0 = s.key :=
  append_eq_of_bigEndian (getState_getD 4407 7 rfl rfl)

/-! ### Machines with the same blob -/

/-- Cell `(px, py)` is bit `px mod 8` of byte `8 py + px div 8` of the display part. -/
theorem getState_cell (s : State) {px py : Nat} (hx : px ≤ 63) (hy : py ≤ 31) :
    ((getState s).getD (4151 + (8 * py + px / 8)) 0).getLsbD (px % 8) = s.disp.cell px py := by
  rw [getState_disp s (by omega) (Nat.mod_lt px (by decide))]
  congr 1 <;> omega

/-- The blob determines every field. -/
theorem sameMachine_of_getState_eq {s t : State} (hs : s.mem.wf) (ht : t.mem.wf) (h : getState s = getState t) :
    sameMachine s t := by
  refine ⟨memory_ext hs ht fun a ha => ?_, v_ext fun r => ?_, ?_, ?_, Vector.ext fun k hk => ?_, ?_, ?_, ?_,
    grid_ext fun px py hx hy => ?_, ?_⟩
  · rw [← getState_mem s ha, h, getState_mem t ha]
  · rw [← getState_reg s r, h, getState_reg t r]
  · rw [← getState_i s, h, getState_i t]
  · rw [← getState_pc s, h, getState_pc t]
  · have hslot := getState_stack s ⟨k, hk⟩
    rw [h, getState_stack t ⟨k, hk⟩] at hslot
    exact hslot.symm
  · rw [← getState_sp s, h, getState_sp t]
  · rw [← getState_dt s, h, getState_dt t]
  · rw [← getState_st s, h, getState_st t]
  · rw [← getState_cell s hx hy, h, getState_cell t hx hy]
  · rw [← getState_key s, h, getState_key t]

/-- The blob reads no field but those of MachineState (R195). -/
theorem getState_eq_of_sameMachine {s t : State} (h : sameMachine s t) : getState s = getState t := by
  obtain ⟨hmem, hv, hi, hpc, hstack, hsp, hdt, hst, hdisp, hkey⟩ := h
  simp only [getState, hmem, hv, hi, hpc, hstack, hsp, hdt, hst, hdisp, hkey]

end Sys2Proof.Machine

namespace Sys2Proof
open Machine

/-- Settles O55: each field is a part of the blob, or a place in one. -/
theorem blobLayout : Obligations.BlobLayout := by
  unfold Obligations.BlobLayout
  exact fun s => ⟨length_getState s, fun _ => getState_mem s, getState_reg s, getState_i s, getState_pc s, getState_stack s,
    getState_sp s, getState_dt s, getState_st s, fun _ _ => getState_disp s, getState_key s⟩

/-- Settles O56: each field can be read off the blob, and the blob is made of nothing else. -/
theorem blobsAreEqualIffMachinesAre : Obligations.BlobsAreEqualIffMachinesAre := by
  unfold Obligations.BlobsAreEqualIffMachinesAre
  exact ⟨fun _ => rfl, fun _ _ hs hs' => ⟨sameMachine_of_getState_eq hs hs', getState_eq_of_sameMachine⟩⟩

end Sys2Proof
end

/-! DecodeError (60_exceptions.md R211): every check an instruction makes has a fault of its own, so the decoder alone raises it. -/

section
namespace Sys2Proof.Machine
open Claims

/-! ### The faults an instruction can take -/

/-- A meaning does not end in fault `f` if its check goes on to a state without it or fails with another. -/
theorem settle_result_ne {s t : State} {r : Except Fault State} {f : Fault} (h : settle s r = .next t)
    (hr : (∃ u, r = .ok u ∧ u.result ≠ some f) ∨ ∃ g, r = .error g ∧ g ≠ f) : t.result ≠ some f := by
  rcases hr with ⟨u, rfl, hu⟩ | ⟨g, rfl, hg⟩ <;> cases h
  · exact hu
  · exact fun he => hg (Option.some.inj he)

/-- The same where the checked operation hands a value on to the rest of the meaning. -/
theorem settle_map_result_ne {α : Type} {s t : State} {r : Except Fault α} {k : α → State} {f : Fault}
    (h : settle s (r.map k) = .next t)
    (hr : (∃ a, r = .ok a ∧ (k a).result ≠ some f) ∨ ∃ g, r = .error g ∧ g ≠ f) : t.result ≠ some f :=
  settle_result_ne h (hr.imp (fun ⟨a, e, ha⟩ => ⟨k a, congrArg (Except.map k) e, ha⟩)
    fun ⟨g, e, hg⟩ => ⟨g, congrArg (Except.map k) e, hg⟩)

/-- No instruction raises DecodeError: each of the five checks that can fail has another cause. -/
theorem exec_result_ne_decodeError {i : Instr} {s t : State} {op : Word} (h : exec i s = .next t)
    (hs : s.result ≠ some (.decodeError op)) : t.result ≠ some (.decodeError op) := by
  cases i with
  | ret =>
    exact settle_map_result_ne h ((pop_cases _ s).imp (fun ⟨_, e⟩ => ⟨_, e, hs⟩) fun ⟨_, e⟩ => ⟨_, e, nofun⟩)
  | callAddr nnn =>
    exact settle_map_result_ne h ((push_cases _ s.pc s).imp (fun ⟨_, e⟩ => ⟨_, e, hs⟩) fun ⟨_, e⟩ => ⟨_, e, nofun⟩)
  | skp x | sknp x =>
    exact settle_map_result_ne h ((keyOperand_cases _ (s.reg x)).imp
      (fun ⟨_, e⟩ => ⟨_, e, (skipIf_result s _).trans_ne hs⟩) fun ⟨_, e⟩ => ⟨_, e, nofun⟩)
  | drw | loadRegs =>
    exact settle_map_result_ne h ((loadBytes_cases s.i _ s).imp (fun ⟨_, e⟩ => ⟨_, e, hs⟩) fun ⟨_, e⟩ => ⟨_, e, nofun⟩)
  | ldB | storeRegs =>
    exact settle_result_ne h ((storeBytes_cases s.i _ s).imp (fun ⟨_, e⟩ => ⟨_, e, hs⟩) fun ⟨_, e⟩ => ⟨_, e, nofun⟩)
  | seByte | sneByte | seReg | sneReg =>
    cases h
    exact (skipIf_result s _).trans_ne hs
  | ldVxK x =>
    change execLdVxK x s = .next t at h
    unfold execLdVxK at h
    split at h <;> cases h <;> exact hs
  | _ =>
    cases h
    exact hs

/-! ### A step at an undefined opcode, and any other -/

/-- A step that fetches an undefined opcode takes the fault past it (40_step_cycle.md R92). -/
theorem step_of_undefined {s : State} {r : Reject} (hp : s.pc.toNat ≤ 0xFFE)
    (hd : decodeOp (opcodeAtPC s) = .error r) :
    step s = .next (takeFault (.decodeError (opcodeAtPC s)) (advance s)) := by
  simp only [step, fetch_of_pc_le hp, hd]

/-- A step that ends in DecodeError has fetched an undefined opcode and taken the fault past it. -/
theorem step_cases_of_decodeError {s t : State} {op : Word} (h : step s = .next t)
    (ht : t.result = some (.decodeError op)) :
    s.pc.toNat ≤ 0xFFE ∧ op = opcodeAtPC s ∧ (∃ r, decodeOp op = .error r) ∧
      t = takeFault (.decodeError op) (advance s) := by
  rcases step_cases h with ⟨-, rfl⟩ | ⟨op', r, hp, hf, hd, rfl⟩ | ⟨_, i, u, -, -, -, he, rfl⟩
  · exact nomatch ht
  · obtain rfl : op' = op := Fault.decodeError.inj (Option.some.inj ht)
    exact ⟨hp, (fetch_ok hf).2, ⟨r, hd⟩, rfl⟩
  · exact absurd ((endStep_result u).symm.trans ht) (exec_result_ne_decodeError he nofun)

/-- Every step answers a next state (60_exceptions.md R219). -/
theorem exists_step_eq_next (s : State) : ∃ t, step s = .next t := by
  rcases fetch_cases s with ⟨hp, -⟩ | ⟨-, hf⟩
  · cases hd : decodeOp (opcodeAtPC s) with
    | error r => exact ⟨_, step_of_undefined hp hd⟩
    | ok i =>
      obtain ⟨u, he⟩ : ∃ u, exec i (advance s) = .next u :=
        (exec_cases i (advance s)).elim (fun ⟨u, he, _⟩ => ⟨u, he⟩) fun ⟨_, he⟩ => ⟨_, he⟩
      exact ⟨endStep u, by simp only [step, fetch_of_pc_le hp, hd, he]⟩
  · exact ⟨takeFault (.addressFault s.pc) s, by simp only [step, hf]⟩

/-- A fault taken after the advance writes `PC` and the record of faults, and nothing else (60_exceptions.md R217). -/
theorem takeFault_advance_frame (s : State) (f : Fault) {W : List Part} (hpc : Part.pc ∈ W) (hfault : Part.fault ∈ W) :
    unchangedBut W s (takeFault f (advance s)) := by
  simp [unchangedBut, hpc, hfault]

end Sys2Proof.Machine

namespace Sys2Proof
open Machine

/-- Settles O7: forward by where such a step has stopped, backward because the state a step answers is unique. -/
theorem decodeErrorOnUndefinedOpcodes : Obligations.DecodeErrorOnUndefinedOpcodes := by
  unfold Obligations.DecodeErrorOnUndefinedOpcodes
  intro s
  obtain ⟨t, h⟩ := exists_step_eq_next s
  refine ⟨t, h, fun op => ⟨⟨fun ht => ?_, fun ⟨hp, hop, r, hd⟩ => ?_⟩, fun ht => ?_⟩⟩
  · obtain ⟨hp, hop, hd, -⟩ := step_cases_of_decodeError h ht
    exact ⟨hp, hop, hd⟩
  · subst hop
    rw [Host.Outcome.next.inj (h.symm.trans (step_of_undefined hp hd)), takeFault_result]
  · obtain ⟨hp, -, -, rfl⟩ := step_cases_of_decodeError h ht
    exact ⟨advance_pc_toNat hp, takeFault_advance_frame s _ (by decide) (by decide)⟩

end Sys2Proof
end

/-! The opcode map (30_encoding.md R73 to R79): decoder and encoder undo one another, and where the decoder rejects. -/

section
namespace Sys2Proof

/-! ### Formats read backward: an opcode whose fields are known -/

theorem formatNNN_eq_of_group {op : Word} {g : BitVec 4} (hg : fieldG op = g) : formatNNN g (fieldNNN op) = op := by
  rw [← hg, formatNNN_fields]

theorem formatXKK_eq_of_group {op : Word} {g : BitVec 4} (hg : fieldG op = g) :
    formatXKK g (fieldX op) (fieldKK op) = op := by
  rw [← hg, formatXKK_fields]

theorem formatXKK_eq_of_fields {op : Word} {g : BitVec 4} {kk : Byte} (hg : fieldG op = g) (hkk : fieldKK op = kk) :
    formatXKK g (fieldX op) kk = op := by
  rw [← hkk, formatXKK_eq_of_group hg]

theorem formatXY_eq_of_group {op : Word} {g : BitVec 4} (hg : fieldG op = g) :
    formatXY g (fieldX op) (fieldY op) (fieldN op) = op := by
  rw [← hg, formatXY_fields]

theorem formatXY_eq_of_fields {op : Word} {g low : BitVec 4} (hg : fieldG op = g) (hn : fieldN op = low) :
    formatXY g (fieldX op) (fieldY op) low = op := by
  rw [← hn, formatXY_eq_of_group hg]

/-! ### The two levels of the decoder (R74) -/

/-- The group nibble that the decoder's last arm is left with. -/
theorem eq_groupF_of_ne {g : BitVec 4} (h0 : g ≠ 0x0) (h1 : g ≠ 0x1) (h2 : g ≠ 0x2) (h3 : g ≠ 0x3) (h4 : g ≠ 0x4)
    (h5 : g ≠ 0x5) (h6 : g ≠ 0x6) (h7 : g ≠ 0x7) (h8 : g ≠ 0x8) (h9 : g ≠ 0x9) (hA : g ≠ 0xA) (hB : g ≠ 0xB) (hC : g ≠ 0xC)
    (hD : g ≠ 0xD) (hE : g ≠ 0xE) : g = 0xF := by
  bv_omega

/-- What the decoder can do: dispatch further in groups 0, 8, E and F, or answer at once, with the instruction whose opcode
it was given. -/
theorem decodeOp_cases (op : Word) :
    (fieldG op = 0x0#4 ∧ decodeOp op = decodeGroup0 op) ∨ (fieldG op = 0x8#4 ∧ decodeOp op = decodeGroup8 op) ∨
    (fieldG op = 0xE#4 ∧ decodeOp op = decodeGroupE op) ∨ (fieldG op = 0xF#4 ∧ decodeOp op = decodeGroupF op) ∨
    (fieldG op ∉ [0x0#4, 0x8#4, 0xE#4, 0xF#4] ∧ ∃ i, decodeOp op = .ok i ∧ encode i = op) := by
  have direct : ∀ {i : Instr} {g : BitVec 4}, fieldG op = g → g ∉ [0x0#4, 0x8#4, 0xE#4, 0xF#4] → encode i = op →
      fieldG op ∉ [0x0#4, 0x8#4, 0xE#4, 0xF#4] ∧ ∃ j, Except.ok (ε := Reject) i = .ok j ∧ encode j = op :=
    fun hg hne hi => ⟨hg ▸ hne, _, rfl, hi⟩
  unfold decodeOp
  split
  case h_1 hg => exact .inl ⟨hg, rfl⟩
  case h_9 hg => exact .inr (.inl ⟨hg, rfl⟩)
  case h_15 hg => exact .inr (.inr (.inl ⟨hg, rfl⟩))
  case h_16 =>
    have hg := eq_groupF_of_ne ‹_› ‹_› ‹_› ‹_› ‹_› ‹_› ‹_› ‹_› ‹_› ‹_› ‹_› ‹_› ‹_› ‹_› ‹_›
    exact .inr (.inr (.inr (.inl ⟨hg, rfl⟩)))
  case h_2 hg | h_3 hg | h_11 hg | h_12 hg =>
    exact .inr (.inr (.inr (.inr (direct hg (by decide) (formatNNN_eq_of_group hg)))))
  case h_6 hg | h_10 hg | h_14 hg =>
    exact .inr (.inr (.inr (.inr (direct hg (by decide) (formatXY_eq_of_group hg)))))
  case h_4 hg | h_5 hg | h_7 hg | h_8 hg | h_13 hg =>
    exact .inr (.inr (.inr (.inr (direct hg (by decide) (formatXKK_eq_of_group hg)))))

/-! ### Encode after decode -/

theorem encode_of_decodeGroup0 {op : Word} {i : Instr} (hg : fieldG op = 0x0#4) (h : decodeGroup0 op = .ok i) :
    encode i = op := by
  unfold decodeGroup0 at h
  split at h <;> cases h
  all_goals
    rename_i hn
    rw [← formatNNN_fields op, hg, hn]
    rfl

theorem encode_of_decodeGroup8 {op : Word} {i : Instr} (hg : fieldG op = 0x8#4) (h : decodeGroup8 op = .ok i) :
    encode i = op := by
  unfold decodeGroup8 at h
  split at h <;> cases h <;> exact formatXY_eq_of_fields hg ‹_›

theorem encode_of_decodeGroupE {op : Word} {i : Instr} (hg : fieldG op = 0xE#4) (h : decodeGroupE op = .ok i) :
    encode i = op := by
  unfold decodeGroupE at h
  split at h <;> cases h <;> exact formatXKK_eq_of_fields hg ‹_›

theorem encode_of_decodeGroupF {op : Word} {i : Instr} (hg : fieldG op = 0xF#4) (h : decodeGroupF op = .ok i) :
    encode i = op := by
  unfold decodeGroupF at h
  split at h <;> cases h <;> exact formatXKK_eq_of_fields hg ‹_›

/-- A defined opcode is the opcode of what it decodes to. -/
theorem encode_of_decodeOp {op : Word} {i : Instr} (h : decodeOp op = .ok i) : encode i = op := by
  rcases decodeOp_cases op with ⟨hg, e⟩ | ⟨hg, e⟩ | ⟨hg, e⟩ | ⟨hg, e⟩ | ⟨-, j, e, hj⟩ <;> rw [e] at h
  · exact encode_of_decodeGroup0 hg h
  · exact encode_of_decodeGroup8 hg h
  · exact encode_of_decodeGroupE hg h
  · exact encode_of_decodeGroupF hg h
  · exact Except.ok.inj h ▸ hj

/-! ### Where the decoder rejects (R78) -/

theorem decodeGroup0_error_iff (op : Word) :
    (∃ r, decodeGroup0 op = .error r) ↔ fieldNNN op ∉ [0x0E0#12, 0x0EE#12] := by
  unfold decodeGroup0
  split <;> simp_all

theorem decodeGroup8_error_iff (op : Word) :
    (∃ r, decodeGroup8 op = .error r) ↔
      fieldN op ∉ [0x0#4, 0x1#4, 0x2#4, 0x3#4, 0x4#4, 0x5#4, 0x6#4, 0x7#4, 0xE#4] := by
  unfold decodeGroup8
  split <;> simp_all

theorem decodeGroupE_error_iff (op : Word) :
    (∃ r, decodeGroupE op = .error r) ↔ fieldKK op ∉ [0x9E#8, 0xA1#8] := by
  unfold decodeGroupE
  split <;> simp_all

theorem decodeGroupF_error_iff (op : Word) :
    (∃ r, decodeGroupF op = .error r) ↔
      fieldKK op ∉ [0x07#8, 0x0A#8, 0x15#8, 0x18#8, 0x1E#8, 0x29#8, 0x33#8, 0x55#8, 0x65#8] := by
  unfold decodeGroupF
  split <;> simp_all

/-- The undefined opcodes, by their fields. -/
theorem decodeOp_error_iff (op : Word) :
    (∃ r, decodeOp op = .error r) ↔
      fieldG op = 0x0#4 ∧ fieldNNN op ∉ [0x0E0#12, 0x0EE#12] ∨
      fieldG op = 0x8#4 ∧ fieldN op ∉ [0x0#4, 0x1#4, 0x2#4, 0x3#4, 0x4#4, 0x5#4, 0x6#4, 0x7#4, 0xE#4] ∨
      fieldG op = 0xE#4 ∧ fieldKK op ∉ [0x9E#8, 0xA1#8] ∨
      fieldG op = 0xF#4 ∧ fieldKK op ∉ [0x07#8, 0x0A#8, 0x15#8, 0x18#8, 0x1E#8, 0x29#8, 0x33#8, 0x55#8, 0x65#8] := by
  rcases decodeOp_cases op with ⟨hg, e⟩ | ⟨hg, e⟩ | ⟨hg, e⟩ | ⟨hg, e⟩ | ⟨hg, j, e, -⟩ <;> rw [e]
  · simp [decodeGroup0_error_iff, hg]
  · simp [decodeGroup8_error_iff, hg]
  · simp [decodeGroupE_error_iff, hg]
  · simp [decodeGroupF_error_iff, hg]
  · simp at hg
    simp [hg]

/-! ### The fields as numbers -/

theorem fieldG_toNat (op : Word) : (fieldG op).toNat = op.toNat / 4096 := by
  have := op.isLt
  simp [fieldG, BitVec.extractLsb'_toNat, Nat.shiftRight_eq_div_pow]
  omega

theorem fieldN_toNat (op : Word) : (fieldN op).toNat = op.toNat % 16 := by
  simp [fieldN]

theorem fieldKK_toNat (op : Word) : (fieldKK op).toNat = op.toNat % 256 := by
  simp [fieldKK]

theorem fieldNNN_toNat (op : Word) : (fieldNNN op).toNat = op.toNat % 4096 := by
  simp [fieldNNN]

/-! ### Masks and matches (R76) -/

/-- The opcode of an instruction is in the row of R76 it belongs to. -/
theorem encode_in_row (i : Instr) : Laws.EncodesInRow.Statement i := by
  cases i with
  | cls | ret => rfl
  | jpAddr | callAddr | ldI | jpV0 => exact and_NNN _ _
  | seByte | sneByte | ldByte | addByte | rnd => exact formatXKK_group _ _ _
  | seReg | sneReg | drw => exact formatXY_group _ _ _ _
  | ldReg | orReg | andReg | xorReg | addReg | subReg | shr | subn | shl => exact and_XY _ _ _ _
  | _ => exact and_XKK _ _ _

theorem rowOf_mem_opcodeTable (i : Instr) : rowOf i ∈ opcodeTable := by
  cases i <;> simp [rowOf, opcodeTable, opcodeTableLow, opcodeTableHigh]

theorem selects_iff (r : OpcodeRow) (op : Word) : r.selects op = true ↔ op &&& r.mask = r.value := beq_iff_eq

/-- Two rows that select one opcode agree where both masks look. -/
theorem values_agree_of_selects {r r' : OpcodeRow} {op : Word} (h : r.selects op = true) (h' : r'.selects op = true) :
    r.value &&& r'.mask = r'.value &&& r.mask := by
  rw [selects_iff] at h h'
  rw [← h, ← h', BitVec.and_assoc, BitVec.and_assoc, BitVec.and_comm r.mask]

/-- Two rows of the map that agree where both masks look are the same row. -/
theorem opcodeTable_disjoint : ∀ r ∈ opcodeTable, ∀ r' ∈ opcodeTable,
    r.value &&& r'.mask = r'.value &&& r.mask → r = r' := by decide

/-- A slice of the bits a row looks at is what the row's value has there. -/
theorem extract_of_selects {r : OpcodeRow} {op : Word} (h : r.selects op = true) {a l : Nat}
    (hm : r.mask.extractLsb' a l = BitVec.allOnes l) : op.extractLsb' a l = r.value.extractLsb' a l := by
  rw [selects_iff] at h
  rw [← h, BitVec.extractLsb'_and, hm, BitVec.and_allOnes]

theorem extract_mem_of_selects {r : OpcodeRow} {op : Word} (h : r.selects op = true) {a l : Nat} {vs : List (BitVec l)}
    (hm : r.mask.extractLsb' a l = BitVec.allOnes l) (hv : r.value.extractLsb' a l ∈ vs) : op.extractLsb' a l ∈ vs := by
  rwa [extract_of_selects h hm]

/-- Every row of the map fixes the group, and in groups 0, 8, E and F the second-level field, to a defined value. -/
theorem opcodeTable_fixes_fields : ∀ r ∈ opcodeTable, fieldG r.mask = 0xF#4 ∧
    (fieldG r.value = 0x0#4 → fieldNNN r.mask = 0xFFF#12 ∧ fieldNNN r.value ∈ [0x0E0#12, 0x0EE#12]) ∧
    (fieldG r.value = 0x8#4 → fieldN r.mask = 0xF#4 ∧
      fieldN r.value ∈ [0x0#4, 0x1#4, 0x2#4, 0x3#4, 0x4#4, 0x5#4, 0x6#4, 0x7#4, 0xE#4]) ∧
    (fieldG r.value = 0xE#4 → fieldKK r.mask = 0xFF#8 ∧ fieldKK r.value ∈ [0x9E#8, 0xA1#8]) ∧
    (fieldG r.value = 0xF#4 → fieldKK r.mask = 0xFF#8 ∧
      fieldKK r.value ∈ [0x07#8, 0x0A#8, 0x15#8, 0x18#8, 0x1E#8, 0x29#8, 0x33#8, 0x55#8, 0x65#8]) := by decide

/-- An opcode that a row of the map selects is defined. -/
theorem exists_decodeOp_of_selects {r : OpcodeRow} (hr : r ∈ opcodeTable) {op : Word} (h : r.selects op = true) :
    ∃ i, decodeOp op = .ok i := by
  obtain ⟨hmask, h0, h8, hE, hF⟩ := opcodeTable_fixes_fields r hr
  have hgroup : fieldG op = fieldG r.value := extract_of_selects h hmask
  cases hd : decodeOp op with
  | ok i => exact ⟨i, rfl⟩
  | error e =>
    rw [← hgroup] at h0 h8 hE hF
    rcases (decodeOp_error_iff op).mp ⟨e, hd⟩ with ⟨hg, hne⟩ | ⟨hg, hne⟩ | ⟨hg, hne⟩ | ⟨hg, hne⟩
    · obtain ⟨hm, hv⟩ := h0 hg
      exact absurd (extract_mem_of_selects h hm hv) hne
    · obtain ⟨hm, hv⟩ := h8 hg
      exact absurd (extract_mem_of_selects h hm hv) hne
    · obtain ⟨hm, hv⟩ := hE hg
      exact absurd (extract_mem_of_selects h hm hv) hne
    · obtain ⟨hm, hv⟩ := hF hg
      exact absurd (extract_mem_of_selects h hm hv) hne

/-- Settles O1: by the instruction's format, whose fields are the operands. -/
theorem decodeOfEncode : Obligations.DecodeOfEncode := by
  unfold Obligations.DecodeOfEncode
  intro i
  cases i with
  | cls | ret => rfl
  | ldReg | orReg | andReg | xorReg | addReg | subReg | shr | subn | shl => simp [encode, decodeOp, decodeGroup8]
  | skp | sknp => simp [encode, decodeOp, decodeGroupE]
  | ldVxDT | ldVxK | ldDTVx | ldSTVx | addI | ldF | ldB | storeRegs | loadRegs =>
    simp [encode, decodeOp_groupF, decodeGroupF]
  | _ => simp [encode, decodeOp]

/-- Settles O2: group by group, since the fields of an opcode make it up. -/
theorem encodeOfDecode : Obligations.EncodeOfDecode := by
  unfold Obligations.EncodeOfDecode
  exact fun _ _ => encode_of_decodeOp

/-- Settles O3: the row of the decoded instruction selects its opcode, a row that selects an opcode fixes its fields to
defined values, and the rows are disjoint by their values. -/
theorem decodeFollowsOpcodeMap : Obligations.DecodeFollowsOpcodeMap := by
  unfold Obligations.DecodeFollowsOpcodeMap
  intro op
  have hrow : ∀ i, decodeOp op = .ok i → rowOf i ∈ opcodeTable ∧ (rowOf i).selects op = true := fun i hi =>
    ⟨rowOf_mem_opcodeTable i, (selects_iff _ op).mpr (encode_of_decodeOp hi ▸ encode_in_row i)⟩
  refine ⟨⟨fun ⟨i, hi⟩ => ⟨rowOf i, hrow i hi⟩, fun ⟨r, hr, h⟩ => exists_decodeOp_of_selects hr h⟩, hrow, ?_⟩
  exact fun r hr r' hr' h h' => opcodeTable_disjoint r hr r' hr' (values_agree_of_selects h h')

/-- Settles O4: the undefined opcodes by their fields, each field read as a number. -/
theorem undefinedOpcodesExactly : Obligations.UndefinedOpcodesExactly := by
  unfold Obligations.UndefinedOpcodesExactly
  intro op
  rw [decodeOp_error_iff]
  simp only [← BitVec.toNat_inj, List.mem_cons, List.not_mem_nil, or_false, not_or, fieldG_toNat, fieldN_toNat,
    fieldKK_toNat, fieldNNN_toNat, BitVec.toNat_ofNat]
  omega

/-- Settles O5: each word is evaluated. -/
theorem sampleOpcodesDecode : Obligations.SampleOpcodesDecode := by
  unfold Obligations.SampleOpcodesDecode
  decide

end Sys2Proof
end

/-! What each instruction with a check can do, said once, and the frame of all 34 (the frame rules R113, R131, R137, R145, R158,
R172). -/

section
namespace Sys2Proof.Machine
open Claims

/-! ### The instructions that check a precondition (60_exceptions.md R210), and the one that waits -/

theorem exec_ret_cases (s : State) :
    (∃ h : 1 ≤ s.sp.toNat ∧ s.sp.toNat ≤ 16,
      exec .ret s = .next { s with sp := s.sp - 1, pc := s.stack[s.sp.toNat - 1] }) ∨
    ¬(1 ≤ s.sp.toNat ∧ s.sp.toNat ≤ 16) ∧ exec .ret s = .next (takeFault (.stackUnderflow (encode .ret)) s) := by
  change (∃ h, settle s ((pop (encode .ret) s).map _) = _) ∨ _ ∧ settle s ((pop (encode .ret) s).map _) = _
  rcases pop_cases (encode .ret) s with ⟨h, e⟩ | ⟨h, e⟩ <;> rw [e]
  · exact .inl ⟨h, rfl⟩
  · exact .inr ⟨h, rfl⟩

theorem exec_callAddr_cases (nnn : BitVec 12) (s : State) :
    (∃ h : s.sp.toNat < 16, exec (.callAddr nnn) s =
      .next { s with stack := s.stack.set s.sp.toNat s.pc, sp := s.sp + 1, pc := zextAddr nnn }) ∨
    16 ≤ s.sp.toNat ∧ exec (.callAddr nnn) s = .next (takeFault (.stackOverflow (encode (.callAddr nnn))) s) := by
  change (∃ h, settle s ((push _ s.pc s).map _) = _) ∨ _ ∧ settle s ((push _ s.pc s).map _) = _
  rcases push_cases (encode (.callAddr nnn)) s.pc s with ⟨h, e⟩ | ⟨h, e⟩ <;> rw [e]
  · exact .inl ⟨h, rfl⟩
  · exact .inr ⟨h, rfl⟩

theorem exec_drw_cases (x y n : Fin 16) (s : State) :
    (n.val = 0 ∨ s.i.toNat + n.val - 1 ≤ 0xFFF) ∧
      exec (.drw x y n) s = .next (drawSprite (s.mem.readFrom s.i.toNat n.val) (s.reg x) (s.reg y) s) ∨
    (0 < n.val ∧ 0xFFF < s.i.toNat + n.val - 1) ∧ exec (.drw x y n) s = .next (takeFault (.addressFault s.i) s) := by
  change _ ∧ settle s ((loadBytes s.i n.val s).map _) = _ ∨ _ ∧ settle s ((loadBytes s.i n.val s).map _) = _
  rcases loadBytes_cases s.i n.val s with ⟨h, e⟩ | ⟨h, e⟩ <;> rw [e]
  · exact .inl ⟨(inMemory_iff _ _).mp h, rfl⟩
  · exact .inr ⟨(inMemory_false_iff _ _).mp h, rfl⟩

theorem exec_loadRegs_cases (x : Fin 16) (s : State) :
    s.i.toNat + x.val ≤ 0xFFF ∧
      exec (.loadRegs x) s = .next (setRegsUpTo x (s.mem.readFrom s.i.toNat (x.val + 1)) s) ∨
    0xFFF < s.i.toNat + x.val ∧ exec (.loadRegs x) s = .next (takeFault (.addressFault s.i) s) := by
  change _ ∧ settle s ((loadBytes s.i (x.val + 1) s).map _) = _ ∨ _ ∧ settle s ((loadBytes s.i (x.val + 1) s).map _) = _
  rcases loadBytes_cases s.i (x.val + 1) s with ⟨h, e⟩ | ⟨h, e⟩ <;> rw [e]
  · rw [inMemory_iff] at h
    exact .inl ⟨by omega, rfl⟩
  · rw [inMemory_false_iff] at h
    exact .inr ⟨by omega, rfl⟩

/-- The two instructions that store: at least one byte, from `I` up. -/
theorem settle_storeBytes_cases {bs : List Byte} {n : Nat} (hn : bs.length = n + 1) (s : State) :
    s.i.toNat + n ≤ 0xFFF ∧
      settle s (storeBytes s.i bs s) = .next { s with mem := s.mem.writeFrom s.i.toNat bs } ∨
    0xFFF < s.i.toNat + n ∧ settle s (storeBytes s.i bs s) = .next (takeFault (.addressFault s.i) s) := by
  rcases storeBytes_cases s.i bs s with ⟨h, e⟩ | ⟨h, e⟩ <;> rw [e]
  · rw [inMemory_iff] at h
    exact .inl ⟨by omega, rfl⟩
  · rw [inMemory_false_iff] at h
    exact .inr ⟨by omega, rfl⟩

theorem exec_ldB_cases (x : Fin 16) (s : State) :
    s.i.toNat + 2 ≤ 0xFFF ∧
      exec (.ldB x) s = .next { s with mem := s.mem.writeFrom s.i.toNat (decimalDigits (s.reg x)) } ∨
    0xFFF < s.i.toNat + 2 ∧ exec (.ldB x) s = .next (takeFault (.addressFault s.i) s) :=
  settle_storeBytes_cases (decimalDigits_length (s.reg x)) s

theorem exec_storeRegs_cases (x : Fin 16) (s : State) :
    s.i.toNat + x.val ≤ 0xFFF ∧
      exec (.storeRegs x) s = .next { s with mem := s.mem.writeFrom s.i.toNat (regsUpTo x s) } ∨
    0xFFF < s.i.toNat + x.val ∧ exec (.storeRegs x) s = .next (takeFault (.addressFault s.i) s) :=
  settle_storeBytes_cases (regsUpTo_length x s) s

/-- The two instructions that look at one key. -/
theorem settle_keyOperand_cases (op : Word) (vx : Byte) (g : Nat → State) (s : State) :
    vx.toNat ≤ 15 ∧ settle s ((keyOperand op vx).map g) = .next (g vx.toNat) ∨
    15 < vx.toNat ∧ settle s ((keyOperand op vx).map g) = .next (takeFault (.keyIndexFault op) s) := by
  rcases keyOperand_cases op vx with ⟨h, e⟩ | ⟨h, e⟩ <;> rw [e]
  · exact .inl ⟨h, rfl⟩
  · exact .inr ⟨h, rfl⟩

theorem exec_skp_cases (x : Fin 16) (s : State) :
    (s.reg x).toNat ≤ 15 ∧ exec (.skp x) s = .next (skipIf (keyDown s (s.reg x).toNat) s) ∨
    15 < (s.reg x).toNat ∧ exec (.skp x) s = .next (takeFault (.keyIndexFault (encode (.skp x))) s) :=
  settle_keyOperand_cases _ _ _ s

theorem exec_sknp_cases (x : Fin 16) (s : State) :
    (s.reg x).toNat ≤ 15 ∧ exec (.sknp x) s = .next (skipIf (!keyDown s (s.reg x).toNat) s) ∨
    15 < (s.reg x).toNat ∧ exec (.sknp x) s = .next (takeFault (.keyIndexFault (encode (.sknp x))) s) :=
  settle_keyOperand_cases _ _ _ s

theorem exec_ldVxK_cases (x : Fin 16) (s : State) :
    (∃ k, firstKeyDown s = some k ∧ exec (.ldVxK x) s = .next (s.setReg x (BitVec.ofNat 8 k))) ∨
    firstKeyDown s = none ∧ exec (.ldVxK x) s = .next (s.setPc (s.pc - 2)) := by
  change (∃ k, _ ∧ execLdVxK x s = _) ∨ _ ∧ execLdVxK x s = _
  unfold execLdVxK
  cases h : firstKeyDown s with
  | some k => exact .inl ⟨k, rfl, rfl⟩
  | none => exact .inr ⟨rfl, rfl⟩

/-! ### Frames of the operations -/

/-- A fault leaves everything but the record of faults. -/
theorem takeFault_frame (s : State) (f : Fault) {W : List Part} (hW : Part.fault ∈ W) :
    unchangedBut W s (takeFault f s) := by
  simp [unchangedBut, hW]

theorem faultsWith_takeFault (f : Fault) (s : State) : faultsWith f s (takeFault f s) :=
  ⟨rfl, rfl, takeFault_frame s f List.mem_cons_self⟩

theorem skipIf_frame (c : Bool) (s : State) : unchangedBut [.pc] s (skipIf c s) := by
  simp [unchangedBut]

theorem setRegThenFlag_frame (s : State) (x : Fin 16) (r f : Byte) : unchangedBut [.v] s (s.setRegThenFlag x r f) := by
  simp [unchangedBut]

theorem setI_frame (s : State) (w : Word) : unchangedBut [.i] s (s.setI w) := by
  simp [unchangedBut]

theorem setRegsUpTo_frame (x : Fin 16) (bs : List Byte) (s : State) : unchangedBut [.v] s (setRegsUpTo x bs s) := by
  simp [unchangedBut]

theorem draw8_setReg_frame (s : State) (x : Fin 16) (b : Byte) :
    unchangedBut [.v, .draws] s (s.draw8.2.setReg x b) := by
  simp [unchangedBut]

theorem drawSprite_frame (bs : List Byte) (vx vy : Byte) (s : State) :
    unchangedBut [.disp, .v] s (drawSprite bs vx vy s) := by
  simp [unchangedBut, drawSprite, State.setFlag]

/-- Drawing writes no register but the flag, last. -/
@[simp] theorem drawSprite_reg (bs : List Byte) (vx vy : Byte) (s : State) (r : Fin 16) :
    (drawSprite bs vx vy s).reg r =
      if r = 15 then flagByte (drawRows bs vx.toNat vy.toNat (s.disp, false)).2 else s.reg r := by
  simp [drawSprite]

/-- A return writes `PC` and `SP`. -/
theorem setSp_setPc_frame (s : State) (b : Byte) (w : Word) : unchangedBut [.pc, .sp] s { s with sp := b, pc := w } := by
  simp [unchangedBut, State.reg]

/-- A call writes `PC`, `SP` and the stack. -/
theorem setStack_setSp_setPc_frame (s : State) (k : Vector Word 16) (b : Byte) (w : Word) :
    unchangedBut [.pc, .sp, .stack] s { s with stack := k, sp := b, pc := w } := by
  simp [unchangedBut, State.reg]

/-- A frame may name more parts than are written. -/
theorem unchangedBut_mono {W W' : List Part} {s t : State} (h : unchangedBut W s t) (hW : W ⊆ W') :
    unchangedBut W' s t := by
  obtain ⟨hmem, hv, hi, hpc, hstack, hsp, hdt, hst, hdisp, hkey, hfault, hdraws⟩ := h
  have hn : ∀ {p}, p ∉ W' → p ∉ W := fun hp hp' => hp (hW hp')
  exact ⟨fun h => hmem (hn h), fun h => hv (hn h), fun h => hi (hn h), fun h => hpc (hn h), fun h => hstack (hn h),
    fun h => hsp (hn h), fun h => hdt (hn h), fun h => hst (hn h), fun h => hdisp (hn h), fun h => hkey (hn h),
    fun h => hfault (hn h), fun h => hdraws (hn h)⟩

/-! ### The frame of every instruction -/

/-- An instruction that goes on, or takes a fault, writes the parts it goes on to write and the record of faults. -/
theorem frame_of_ok_or_fault {P Q : Prop} {o : Host.Outcome State Fault Refusal} {s t u : State} {f : Fault}
    {W W' : List Part} (hc : P ∧ o = .next u ∨ Q ∧ o = .next (takeFault f s)) (h : o = .next t)
    (hu : unchangedBut W s u) (hW : Part.fault :: W ⊆ W') : unchangedBut W' s t := by
  rcases hc with ⟨-, e⟩ | ⟨-, e⟩ <;> cases e.symm.trans h
  · exact unchangedBut_mono hu fun p hp => hW (List.mem_cons_of_mem _ hp)
  · exact takeFault_frame s f (hW List.mem_cons_self)

/-- An instruction writes the parts of its footprint and no other. -/
theorem exec_frame {i : Instr} {s t : State} (h : exec i s = .next t) : unchangedBut (footprint i) s t := by
  cases i with
  | ret =>
    rcases exec_ret_cases s with ⟨_, e⟩ | ⟨-, e⟩ <;> cases e.symm.trans h
    · exact unchangedBut_mono (setSp_setPc_frame s _ _) (by simp [footprint])
    · exact takeFault_frame s _ (by simp [footprint])
  | callAddr nnn =>
    rcases exec_callAddr_cases nnn s with ⟨_, e⟩ | ⟨-, e⟩ <;> cases e.symm.trans h
    · exact unchangedBut_mono (setStack_setSp_setPc_frame s _ _ _) (by simp [footprint])
    · exact takeFault_frame s _ (by simp [footprint])
  | drw x y n => exact frame_of_ok_or_fault (exec_drw_cases x y n s) h (drawSprite_frame _ _ _ s) (by simp [footprint])
  | loadRegs x => exact frame_of_ok_or_fault (exec_loadRegs_cases x s) h (setRegsUpTo_frame x _ s) (by simp [footprint])
  | ldB x => exact frame_of_ok_or_fault (exec_ldB_cases x s) h (setMem_frame s _) (by simp [footprint])
  | storeRegs x => exact frame_of_ok_or_fault (exec_storeRegs_cases x s) h (setMem_frame s _) (by simp [footprint])
  | skp x => exact frame_of_ok_or_fault (exec_skp_cases x s) h (skipIf_frame _ s) (by simp [footprint])
  | sknp x => exact frame_of_ok_or_fault (exec_sknp_cases x s) h (skipIf_frame _ s) (by simp [footprint])
  | ldVxK x =>
    rcases exec_ldVxK_cases x s with ⟨_, -, e⟩ | ⟨-, e⟩ <;> cases e.symm.trans h
    · exact unchangedBut_mono (setReg_frame s x _) (by simp [footprint])
    · exact unchangedBut_mono (setPc_frame s _) (by simp [footprint])
  | cls => cases h; exact setDisp_frame s _
  | jpAddr | jpV0 => cases h; exact setPc_frame s _
  | seByte | sneByte | seReg | sneReg => cases h; exact skipIf_frame _ s
  | addReg | subReg | subn | shr | shl => cases h; exact setRegThenFlag_frame s _ _ _
  | rnd x kk => cases h; exact draw8_setReg_frame s x _
  | ldI | addI | ldF => cases h; exact setI_frame s _
  | ldDTVx => cases h; exact setDT_frame s _
  | ldSTVx => cases h; exact setST_frame s _
  | ldByte | addByte | ldReg | orReg | andReg | xorReg | ldVxDT => cases h; exact setReg_frame s _ _

section frame
variable {i : Instr} {s t : State} (h : exec i s = .next t)
include h

theorem exec_read_eq (hi : Part.mem ∉ footprint i) (a : Nat) : t.mem.read a = s.mem.read a := by
  obtain ⟨hmem, -⟩ := exec_frame h
  exact hmem hi a

theorem exec_reg_eq (hi : Part.v ∉ footprint i) (r : Fin 16) : t.reg r = s.reg r := by
  obtain ⟨-, hv, -⟩ := exec_frame h
  exact hv hi r

theorem exec_stack_eq (hi : Part.stack ∉ footprint i) : t.stack = s.stack := by
  obtain ⟨-, -, -, -, hstack, -⟩ := exec_frame h
  exact hstack hi

theorem exec_sp_eq (hi : Part.sp ∉ footprint i) : t.sp = s.sp := by
  obtain ⟨-, -, -, -, -, hsp, -⟩ := exec_frame h
  exact hsp hi

end frame

/-- A register that an instruction neither names as its destination nor writes as the flag keeps its value. -/
theorem exec_reg_of_not_destination {i : Instr} {s t : State} (h : exec i s = .next t) {r : Fin 16}
    (hd : namesDestination r i = false) (hf : ¬(r = 15 ∧ writesFlag i = true)) : t.reg r = s.reg r := by
  cases i with
  | ldByte x | addByte x | ldReg x | orReg x | andReg x | xorReg x | ldVxDT x | rnd x =>
    cases h
    have hx : r ≠ x := by simpa [namesDestination] using hd
    simp [hx]
  | addReg x | subReg x | subn x | shr x | shl x =>
    cases h
    have hx : r ≠ x := by simpa [namesDestination] using hd
    have hr : r ≠ 15 := by simpa [writesFlag] using hf
    simp [setRegThenFlag_reg, hx, hr]
  | drw x y n =>
    have hr : r ≠ 15 := by simpa [writesFlag] using hf
    rcases exec_drw_cases x y n s with ⟨-, e⟩ | ⟨-, e⟩ <;> cases e.symm.trans h <;> simp [hr]
  | loadRegs x =>
    have hx : ¬r ≤ x := by simpa [namesDestination] using hd
    rcases exec_loadRegs_cases x s with ⟨-, e⟩ | ⟨-, e⟩ <;> cases e.symm.trans h <;> simp [hx]
  | ldVxK x =>
    have hx : r ≠ x := by simpa [namesDestination] using hd
    rcases exec_ldVxK_cases x s with ⟨_, -, e⟩ | ⟨-, e⟩ <;> cases e.symm.trans h <;> simp [hx]
  | _ => exact exec_reg_eq h (by simp [footprint]) r

/-- A byte of memory at an address an instruction does not store to keeps its value. -/
theorem exec_read_of_not_storesTo {i : Instr} {s t : State} (h : exec i s = .next t) {a : Nat} (ha : ¬storesTo s a i) :
    t.mem.read a = s.mem.read a := by
  cases i with
  | ldB x =>
    rcases exec_ldB_cases x s with ⟨-, e⟩ | ⟨-, e⟩ <;> cases e.symm.trans h
    · refine read_writeFrom_other _ _ ?_
      rw [decimalDigits_length]
      simp only [storesTo] at ha
      omega
    · rfl
  | storeRegs x =>
    rcases exec_storeRegs_cases x s with ⟨-, e⟩ | ⟨-, e⟩ <;> cases e.symm.trans h
    · refine read_writeFrom_other _ _ ?_
      rw [regsUpTo_length]
      simp only [storesTo] at ha
      omega
    · rfl
  | _ => exact exec_read_eq h (by simp [footprint]) a

/-! ### The flag -/

theorem flagByte_eq_zero_or_one (b : Bool) : flagByte b = 0 ∨ flagByte b = 1 := by
  cases b
  · exact .inl rfl
  · exact .inr rfl

/-- An instruction that writes the flag leaves it 0 or 1, if it does not fault. -/
theorem exec_flag {i : Instr} {s t : State} (h : exec i s = .next t) (hi : writesFlag i = true)
    (hfaults : t.faults = s.faults) : t.reg 15 = 0 ∨ t.reg 15 = 1 := by
  cases i with
  | addReg | subReg | subn | shr | shl =>
    cases h
    rw [setRegThenFlag_reg, if_pos rfl]
    exact flagByte_eq_zero_or_one _
  | drw x y n =>
    rcases exec_drw_cases x y n s with ⟨-, e⟩ | ⟨-, e⟩ <;> cases e.symm.trans h
    · rw [drawSprite_reg, if_pos rfl]
      exact flagByte_eq_zero_or_one _
    · exact absurd hfaults (List.cons_ne_self _ _)
  | _ => exact nomatch hi

end Sys2Proof.Machine

namespace Sys2Proof
open Machine

/-- Settles O22: the parts by the footprint, the registers and bytes by the instruction's destinations. -/
theorem frameOfEveryInstruction : Obligations.FrameOfEveryInstruction := by
  unfold Obligations.FrameOfEveryInstruction
  exact fun i s t h => ⟨exec_frame h, fun _ => exec_reg_of_not_destination h, fun _ => exec_read_of_not_storesTo h⟩

/-- Settles O24: the six by their meanings, any other by its frame. -/
theorem sixInstructionsWriteTheFlag : Obligations.SixInstructionsWriteTheFlag := by
  unfold Obligations.SixInstructionsWriteTheFlag
  refine fun i s t h => ⟨exec_flag h, fun hi hd => exec_reg_of_not_destination h hd ?_⟩
  simp [hi]

end Sys2Proof
end

/-! The step and its faults (40_step_cycle.md R90 to R98, 60_exceptions.md R210 to R219). -/

section
namespace Sys2Proof.Machine
open Claims

/-! ### What a step does with the instruction it decodes -/

/-- Every instruction answers a next state. -/
theorem exists_exec_eq_next (i : Instr) (s : State) : ∃ t, exec i s = .next t :=
  (exec_cases i s).elim (fun ⟨t, h, _⟩ => ⟨t, h⟩) fun ⟨_, h⟩ => ⟨_, h⟩

/-- A step that decodes an instruction runs it from the advanced state and ends. -/
theorem step_of_decoded {s u : State} {i : Instr} (hp : s.pc.toNat ≤ 0xFFE) (hd : decodeOp (opcodeAtPC s) = .ok i)
    (he : exec i (advance s) = .next u) : step s = .next (endStep u) := by
  simp only [step, fetch_of_pc_le hp, hd, he]

/-- A step ends in the tick, unless the instruction faulted (40_step_cycle.md R96). -/
theorem next_endStep (t : State) : (Host.Outcome.next (endStep t) : Host.Outcome State Fault Refusal) =
    if t.result = none then .next (tick t) else .next t :=
  apply_ite Host.Outcome.next _ _ _

/-! ### Which fault an instruction ends in -/

/-- The result of an instruction that goes on without a fault, or takes the fault of its check. -/
theorem result_of_ok_or_fault {P Q : Prop} [Decidable Q] {o : Host.Outcome State Fault Refusal} {s t u : State} {f : Fault}
    (hc : P ∧ o = .next u ∨ Q ∧ o = .next (takeFault f s)) (hPQ : P → ¬Q) (h : o = .next t) (hu : u.result = none) :
    t.result = if Q then some f else none := by
  rcases hc with ⟨hp, e⟩ | ⟨hq, e⟩ <;> cases e.symm.trans h
  · rw [if_neg (hPQ hp), hu]
  · rw [if_pos hq, takeFault_result]

/-- An instruction run by a step leaves the fault of its own precondition, or none. -/
theorem exec_advance_result {i : Instr} {s u : State} (hop : opcodeAtPC s = encode i)
    (h : exec i (advance s) = .next u) : u.result = preconditionFault i s := by
  cases i with
  | ret =>
    rcases exec_ret_cases (advance s) with ⟨hc, e⟩ | ⟨hc, e⟩ <;> cases e.symm.trans h <;> rw [advance_sp] at hc
    · exact (if_neg (by omega)).symm
    · rw [takeFault_result, ← hop]
      exact (if_pos (by omega)).symm
  | callAddr nnn =>
    rcases exec_callAddr_cases nnn (advance s) with ⟨hc, e⟩ | ⟨hc, e⟩ <;> cases e.symm.trans h <;> rw [advance_sp] at hc
    · exact (if_neg (Nat.not_le.mpr hc)).symm
    · rw [takeFault_result, ← hop]
      exact (if_pos hc).symm
  | drw x y n => exact result_of_ok_or_fault (exec_drw_cases x y n (advance s)) (by rw [advance_i]; omega) h rfl
  | loadRegs x => exact result_of_ok_or_fault (exec_loadRegs_cases x (advance s)) Nat.not_lt.mpr h rfl
  | ldB x => exact result_of_ok_or_fault (exec_ldB_cases x (advance s)) Nat.not_lt.mpr h rfl
  | storeRegs x => exact result_of_ok_or_fault (exec_storeRegs_cases x (advance s)) Nat.not_lt.mpr h rfl
  | skp x =>
    rw [preconditionFault, hop]
    exact result_of_ok_or_fault (exec_skp_cases x (advance s)) Nat.not_lt.mpr h (skipIf_result _ _)
  | sknp x =>
    rw [preconditionFault, hop]
    exact result_of_ok_or_fault (exec_sknp_cases x (advance s)) Nat.not_lt.mpr h (skipIf_result _ _)
  | ldVxK x => rcases exec_ldVxK_cases x (advance s) with ⟨_, -, e⟩ | ⟨-, e⟩ <;> cases e.symm.trans h <;> rfl
  | seByte | sneByte | seReg | sneReg =>
    cases h
    exact skipIf_result _ _
  | _ =>
    cases h
    rfl

/-- Every step's result is the fault that the state before it calls for. -/
theorem step_result {s t : State} (h : step s = .next t) : t.result = stepFault s := by
  unfold stepFault
  rcases step_cases h with ⟨hp, rfl⟩ | ⟨op, r, hp, hf, hd, rfl⟩ | ⟨op, i, u, hp, hf, hd, he, rfl⟩
  · rw [if_pos hp]
    rfl
  · obtain ⟨-, rfl⟩ := fetch_ok hf
    rw [if_neg (Nat.not_lt.mpr hp), hd]
    rfl
  · obtain ⟨-, rfl⟩ := fetch_ok hf
    rw [if_neg (Nat.not_lt.mpr hp), hd, endStep_result]
    exact exec_advance_result (encode_of_decodeOp hd).symm he

/-- The host's `step` answers the result, and leaves the state of the step. -/
theorem perform_step {s t : State} (h : step s = .next t) : perform .step s = (stepReply s, t) := by
  change answerStep s (step s) = _
  rw [h, stepReply, ← step_result h]
  simp only [answerStep]
  cases t.result <;> rfl

/-- A step adds its own fault to the record, or leaves the record as it was. -/
theorem step_faults {s t : State} (h : step s = .next t) :
    t.result = none ∧ t.faults = s.faults ∨ ∃ f, t.result = some f ∧ t.faults = f :: s.faults := by
  rcases step_cases h with ⟨-, rfl⟩ | ⟨op, r, -, -, -, rfl⟩ | ⟨op, i, u, -, -, -, he, rfl⟩
  · exact .inr ⟨_, rfl, rfl⟩
  · exact .inr ⟨_, rfl, rfl⟩
  · rw [endStep_result, endStep_faults]
    rcases exec_cases i (advance s) with ⟨v, e, hv⟩ | ⟨f, e⟩ <;> cases e.symm.trans he
    · exact .inl hv
    · exact .inr ⟨f, rfl, rfl⟩

/-- What a faulting step leaves: the fault taken where the fetch failed, or past the instruction. -/
theorem step_cases_of_fault {s t : State} {f : Fault} (h : step s = .next t) (ht : t.result = some f) :
    t = takeFault f s ∨ t = takeFault f (advance s) := by
  rcases step_cases h with ⟨-, rfl⟩ | ⟨op, r, -, -, -, rfl⟩ | ⟨op, i, u, -, -, -, he, rfl⟩
  · cases ht
    exact .inl rfl
  · cases ht
    exact .inr rfl
  · rw [endStep_result] at ht
    rw [endStep_fault ht]
    exact .inr (exec_eq_takeFault he (advance_result s) ht)

theorem step_frame_of_fault {s t : State} {f : Fault} (h : step s = .next t) (ht : t.result = some f) :
    unchangedBut [.pc, .fault] s t := by
  rcases step_cases_of_fault h ht with rfl | rfl
  · exact takeFault_frame s f (by decide)
  · exact takeFault_advance_frame s f (by decide) (by decide)

theorem step_faults_of_fault {s t : State} {f : Fault} (h : step s = .next t) (ht : t.result = some f) :
    t.faults = f :: s.faults := by
  rcases step_cases_of_fault h ht with rfl | rfl <;> rfl

/-! ### The state after a move of the host -/

theorem load_eq_ok {bytes : List Byte} {s t : State} (h : load bytes s = .ok t) :
    t = { s with mem := s.mem.writeFrom 0x200 bytes } := by
  unfold load at h
  split at h <;> cases h
  rfl

theorem setInput_eq_ok {keys : List Bool} {s t : State} (h : setInput keys s = .ok t) :
    t = s.setKey (keypadOf keys) := by
  unfold setInput at h
  split at h <;> cases h
  rfl

theorem setState_eq_ok {bytes : List Byte} {s t : State} (h : setState bytes s = .ok t) : t = decodeBlob bytes s := by
  unfold setState at h
  split at h <;> cases h
  rfl

theorem answer_snd_cases (s : State) (r : Except HostError State) :
    (answer s r).2 = s ∨ ∃ t, r = .ok t ∧ (answer s r).2 = t := by
  cases r with
  | ok t => exact .inr ⟨t, rfl, rfl⟩
  | error e => exact .inl rfl

/-- What an operation of the host can do to the state. -/
theorem perform_snd_cases (c : Command) (s : State) :
    (perform c s).2 = s ∨ (perform c s).2 = initMachine s ∨ (c = .step ∧ step s = .next (perform c s).2) ∨
    (∃ bytes, load bytes s = .ok (perform c s).2) ∨ (∃ keys, (perform c s).2 = s.setKey (keypadOf keys)) ∨
    ∃ bytes, c = .setState bytes ∧ (perform c s).2 = decodeBlob bytes s := by
  cases c with
  | init => exact .inr (.inl rfl)
  | getState => exact .inl rfl
  | readFrame buffer => exact .inl (answerBytes_snd s _)
  | step =>
    obtain ⟨t, h⟩ := exists_step_eq_next s
    rw [perform_step h]
    exact .inr (.inr (.inl ⟨rfl, h⟩))
  | load bytes =>
    rcases answer_snd_cases s (load bytes s) with e | ⟨t, hr, e⟩
    · exact .inl e
    · exact .inr (.inr (.inr (.inl ⟨bytes, hr.trans (congrArg Except.ok e.symm)⟩)))
  | setInput keys =>
    rcases answer_snd_cases s (setInput keys s) with e | ⟨t, hr, e⟩
    · exact .inl e
    · exact .inr (.inr (.inr (.inr (.inl ⟨keys, e.trans (setInput_eq_ok hr)⟩))))
  | setState bytes =>
    rcases answer_snd_cases s (setState bytes s) with e | ⟨t, hr, e⟩
    · exact .inl e
    · exact .inr (.inr (.inr (.inr (.inr ⟨bytes, rfl, e.trans (setState_eq_ok hr)⟩))))

/-- No other operation of the host touches the record of faults. -/
theorem perform_faults {c : Command} {s : State} (hc : c ≠ .step) : (perform c s).2.faults = s.faults := by
  rcases perform_snd_cases c s with e | e | ⟨h, -⟩ | ⟨bytes, e⟩ | ⟨keys, e⟩ | ⟨bytes, -, e⟩
  · rw [e]
  · rw [e, initMachine_faults]
  · exact absurd h hc
  · rw [load_eq_ok e]
  · rw [e]
    rfl
  · rw [e]
    rfl

end Sys2Proof.Machine

namespace Sys2Proof
open Machine

/-- Settles O6: fetch and decode are given, and the end of the step is the tick unless there is a fault. -/
theorem stepRunsDecodedInstruction : Obligations.StepRunsDecodedInstruction := by
  unfold Obligations.StepRunsDecodedInstruction
  intro s i hp hd
  obtain ⟨u, he⟩ := exists_exec_eq_next i (advance s)
  have hrun : exec i { s with pc := s.pc + 2, result := none } = .next u := he
  rw [step_of_decoded hp hd he, hrun]
  exact next_endStep u

/-- Settles O9: the fault is taken where the fetch failed, or past the instruction. -/
theorem faultingStepChangesOnlyPc : Obligations.FaultingStepChangesOnlyPc := by
  unfold Obligations.FaultingStepChangesOnlyPc
  exact fun s t f h ht => ⟨step_faults_of_fault h ht, step_pc_of_fetch_fault h,
    fun hp => step_pc_of_later_fault h hp ht, step_frame_of_fault h ht⟩

/-- Settles O10: the result of a step follows its phases, and the reply the result. -/
theorem faultCausesExactly : Obligations.FaultCausesExactly := by
  unfold Obligations.FaultCausesExactly
  exact ⟨fun s t h => ⟨step_result h, perform_step h⟩, fun w => ⟨rfl, rfl, rfl, rfl, rfl, rfl, rfl, rfl, rfl, rfl⟩⟩

/-- Settles O11: a fetch either faults or gives an opcode, and every instruction answers. -/
theorem everyStepAnswers : Obligations.EveryStepAnswers := by
  unfold Obligations.EveryStepAnswers
  exact exists_step_eq_next

/-- Settles O12: a step by its phases, the other operations by what each writes. -/
theorem faultRecordIsSticky : Obligations.FaultRecordIsSticky := by
  unfold Obligations.FaultRecordIsSticky
  exact ⟨fun s t => step_faults, fun c s => perform_faults⟩

end Sys2Proof
end

/-! Invariants of a run: canonical memory (10_state.md section 7), the stack pointer's range (R27), the range of `PC` without
`set_state` (R23). -/

section
namespace Sys2Proof.Machine
open Safety Claims

/-! ### Canonical memory -/

/-- Every instruction keeps memory in canonical form: two store a range they have checked, the others leave memory alone. -/
theorem exec_mem_wf {i : Instr} {s t : State} (hs : s.mem.wf) (h : exec i s = .next t) : t.mem.wf := by
  cases i with
  | ldB | storeRegs =>
    rcases settle_cases h with e | ⟨f, -, rfl⟩
    · exact storeBytes_wf hs e
    · exact hs
  | ret => rcases exec_ret_cases s with ⟨_, e⟩ | ⟨-, e⟩ <;> cases e.symm.trans h <;> exact hs
  | callAddr nnn => rcases exec_callAddr_cases nnn s with ⟨_, e⟩ | ⟨-, e⟩ <;> cases e.symm.trans h <;> exact hs
  | drw x y n => rcases exec_drw_cases x y n s with ⟨-, e⟩ | ⟨-, e⟩ <;> cases e.symm.trans h <;> exact hs
  | loadRegs x => rcases exec_loadRegs_cases x s with ⟨-, e⟩ | ⟨-, e⟩ <;> cases e.symm.trans h <;> exact hs
  | ldVxK x => rcases exec_ldVxK_cases x s with ⟨_, -, e⟩ | ⟨-, e⟩ <;> cases e.symm.trans h <;> exact hs
  | skp x =>
    rcases exec_skp_cases x s with ⟨-, e⟩ | ⟨-, e⟩ <;> cases e.symm.trans h
    · rwa [skipIf_mem]
    · exact hs
  | sknp x =>
    rcases exec_sknp_cases x s with ⟨-, e⟩ | ⟨-, e⟩ <;> cases e.symm.trans h
    · rwa [skipIf_mem]
    · exact hs
  | seByte | sneByte | seReg | sneReg =>
    cases h
    rwa [skipIf_mem]
  | _ =>
    cases h
    exact hs

theorem step_mem_wf {s t : State} (hs : s.mem.wf) (h : step s = .next t) : t.mem.wf := by
  rcases step_cases h with ⟨-, rfl⟩ | ⟨op, r, -, -, -, rfl⟩ | ⟨op, i, u, -, -, -, he, rfl⟩
  · exact hs
  · exact hs
  · rw [endStep_mem]
    exact exec_mem_wf (s := advance s) hs he

theorem perform_mem_wf {s : State} (hs : s.mem.wf) (c : Command) : (perform c s).2.mem.wf := by
  rcases perform_snd_cases c s with e | e | ⟨-, h⟩ | ⟨bytes, h⟩ | ⟨keys, e⟩ | ⟨bytes, -, e⟩
  · rwa [e]
  · rw [e]
    exact reset_wf
  · exact step_mem_wf hs h
  · exact load_wf hs h
  · rw [e]
    exact hs
  · rw [e]
    exact decodeBlob_wf bytes s

/-! ### The stack pointer -/

/-- Only CALL and RET move the stack pointer, and each checks the range first. -/
theorem exec_stackInRange {i : Instr} {s t : State} (hs : stackInRange s) (h : exec i s = .next t) : stackInRange t := by
  cases i with
  | ret =>
    rcases exec_ret_cases s with ⟨⟨h1, h16⟩, e⟩ | ⟨-, e⟩ <;> cases e.symm.trans h
    · show (s.sp - 1).toNat ≤ 16
      bv_omega
    · exact hs
  | callAddr nnn =>
    rcases exec_callAddr_cases nnn s with ⟨h16, e⟩ | ⟨-, e⟩ <;> cases e.symm.trans h
    · show (s.sp + 1).toNat ≤ 16
      bv_omega
    · exact hs
  | _ =>
    rw [stackInRange, exec_sp_eq h (by simp [footprint])]
    exact hs

theorem step_stackInRange {s t : State} (hs : stackInRange s) (h : step s = .next t) : stackInRange t := by
  rcases step_cases h with ⟨-, rfl⟩ | ⟨op, r, -, -, -, rfl⟩ | ⟨op, i, u, -, -, -, he, rfl⟩
  · exact hs
  · exact hs
  · rw [stackInRange, endStep_sp]
    exact exec_stackInRange (s := advance s) hs he

/-! ### The range of PC, and of the addresses on the stack -/

/-- The largest `PC` a step can leave: a jump with offset reaches 0xFFF + 0xFF, a return 0x1000, a skip 0x1002. -/
theorem pcAfter_le {s : State} (hp : s.pc.toNat ≤ 0xFFE) (hslots : ∀ k : Fin 16, s.stack[k].toNat ≤ 0x1000) (i : Instr) :
    pcAfter i s ≤ 0x10FE := by
  cases i with
  | jpAddr nnn | callAddr nnn =>
    have := nnn.isLt
    simp only [pcAfter]
    omega
  | jpV0 nnn =>
    have := nnn.isLt
    have := (s.reg 0).isLt
    simp only [pcAfter]
    omega
  | ret =>
    simp only [pcAfter, List.getD]
    by_cases hk : s.sp.toNat - 1 < 16
    · have := hslots ⟨s.sp.toNat - 1, hk⟩
      simp only [Fin.getElem_fin] at this
      simp [hk]
      omega
    · simp [hk]
  | seByte | sneByte | seReg | sneReg | skp | sknp | ldVxK =>
    simp only [pcAfter]
    split <;> omega
  | _ =>
    simp only [pcAfter]
    omega

theorem step_pc_le {s t : State} (hs : pcInRange s) (h : step s = .next t) : t.pc.toNat ≤ 0x10FE := by
  obtain ⟨hpc, hslots⟩ := hs
  cases ht : t.result with
  | none =>
    obtain ⟨i, u, hi, he, rfl⟩ := step_cases_of_result_none h ht
    rw [tick_pc, exec_advance_pc hi.1 he ht]
    exact pcAfter_le hi.1 hslots i
  | some f =>
    rcases Nat.lt_or_ge 0xFFE s.pc.toNat with hp | hp
    · rwa [step_pc_of_fetch_fault h hp]
    · rw [step_pc_of_later_fault h hp ht]
      omega

/-- CALL alone writes a slot, and what it pushes is the address after an opcode in memory. -/
theorem exec_slots_le {i : Instr} {s t : State} (hpc : s.pc.toNat ≤ 0x1000)
    (hslots : ∀ k : Fin 16, s.stack[k].toNat ≤ 0x1000) (h : exec i s = .next t) (k : Fin 16) :
    t.stack[k].toNat ≤ 0x1000 := by
  cases i with
  | callAddr nnn =>
    rcases exec_callAddr_cases nnn s with ⟨hsp, e⟩ | ⟨-, e⟩ <;> cases e.symm.trans h
    · simp only [Fin.getElem_fin, Vector.getElem_set]
      split
      · exact hpc
      · exact hslots k
    · exact hslots k
  | _ =>
    rw [exec_stack_eq h (by simp [footprint])]
    exact hslots k

theorem step_slots_le {s t : State} (hslots : ∀ k : Fin 16, s.stack[k].toNat ≤ 0x1000) (h : step s = .next t) (k : Fin 16) :
    t.stack[k].toNat ≤ 0x1000 := by
  rcases step_cases h with ⟨-, rfl⟩ | ⟨op, r, -, -, -, rfl⟩ | ⟨op, i, u, hp, -, -, he, rfl⟩
  · exact hslots k
  · exact hslots k
  · have hnext := advance_pc_toNat hp
    simp only [endStep_stack]
    exact exec_slots_le (s := advance s) (by omega) hslots he k

theorem step_pcInRange {s t : State} (hs : pcInRange s) (h : step s = .next t) : pcInRange t :=
  ⟨step_pc_le hs h, step_slots_le hs.2 h⟩

/-- `PC` is 0x200 and every slot 0 after a reset. -/
theorem initMachine_pcInRange (s : State) : pcInRange (initMachine s) := by
  refine ⟨show (0x200#16).toNat ≤ 0x10FE by decide, fun k => ?_⟩
  rw [initMachine_stack, Fin.getElem_fin, Vector.getElem_replicate]
  decide

theorem perform_pcInRange {c : Command} {s : State} (hc : ∀ bytes, c ≠ .setState bytes) (hs : pcInRange s) :
    pcInRange (perform c s).2 := by
  rcases perform_snd_cases c s with e | e | ⟨-, h⟩ | ⟨bytes, h⟩ | ⟨keys, e⟩ | ⟨bytes, h, -⟩
  · rwa [e]
  · rw [e]
    exact initMachine_pcInRange s
  · exact step_pcInRange hs h
  · rw [load_eq_ok h]
    exact hs
  · rw [e]
    exact hs
  · exact absurd h (hc bytes)

end Sys2Proof.Machine

namespace Sys2Proof
open Machine

/-- Settles O16: the phases of a step around the instructions, of which two store, in a range they have checked. -/
theorem stepKeepsMemoryCanonical : Obligations.StepKeepsMemoryCanonical := by
  unfold Obligations.StepKeepsMemoryCanonical
  exact fun s t => step_mem_wf

/-- Settles O19: the phases of a step around CALL and RET, the two instructions that move the stack pointer. -/
theorem stepKeepsStackInRange : Obligations.StepKeepsStackInRange := by
  unfold Obligations.StepKeepsStackInRange
  exact fun s t => step_stackInRange

/-- Settles O20: `PC` by the table of R120, the slots because CALL pushes an address after an opcode in memory. -/
theorem pcStaysInRangeWithoutSetState : Obligations.PcStaysInRangeWithoutSetState := by
  unfold Obligations.PcStaysInRangeWithoutSetState
  exact ⟨fun s t => step_pcInRange, fun c s => perform_pcInRange⟩

/-- Settles O17: a step as in O16; of the others, `load` writes a range in memory and `set_state` builds a canonical memory. -/
theorem hostOperationsKeepMemoryCanonical : Obligations.HostOperationsKeepMemoryCanonical := by
  unfold Obligations.HostOperationsKeepMemoryCanonical
  exact fun c s hs => perform_mem_wf hs c

/-- Settles O18: such a memory lists exactly the bytes that differ from their reset contents. -/
theorem canonicalMemoriesReadingAlikeAreEqual : Obligations.CanonicalMemoriesReadingAlikeAreEqual := by
  unfold Obligations.CanonicalMemoriesReadingAlikeAreEqual
  exact fun m m' => memory_ext

/-- Settles O21: the reset state is what `init` leaves of itself. -/
theorem resetMeetsInvariants : Obligations.ResetMeetsInvariants := by
  unfold Obligations.ResetMeetsInvariants
  exact ⟨reset_wf, Nat.zero_le 16, initMachine_pcInRange State.reset, rfl⟩

end Sys2Proof
end

/-! What a step depends on (43_random.md R137): 33 instructions commute with forgetting the record of faults and the number of
draws, and RND differs in its destination alone. -/

section
namespace Sys2Proof.Machine
open Safety Claims

/-- The state with the model's record of faults and number of draws forgotten: what is left is MachineState and the result. -/
def State.bare (s : State) : State := { s with faults := [], draws := 0 }

theorem bare_eq_iff (s t : State) : s.bare = t.bare ↔ sameMachine s t ∧ s.result = t.result := by
  simp [State.bare, State.mk.injEq, and_assoc]

/-! ### Instructions -/

/-- A meaning whose checked result commutes with forgetting does so to its end, faults included. -/
theorem settle_bare {s t : State} {r r' : Except Fault State} (hr : r' = r.map State.bare) (h : settle s r = .next t) :
    ∃ u, settle s.bare r' = .next u ∧ u.bare = t.bare := by
  subst hr
  cases r <;> cases h <;> exact ⟨_, rfl, rfl⟩

/-- A meaning whose check reads nothing that is forgotten commutes with forgetting if what follows the check does. -/
theorem settle_map_bare {α : Type} {s t : State} {r : Except Fault α} {g g' : α → State} (hg : ∀ a, g' a = (g a).bare)
    (h : settle s (r.map g) = .next t) : ∃ u, settle s.bare (r.map g') = .next u ∧ u.bare = t.bare := by
  refine settle_bare ?_ h
  cases r with
  | ok a => exact congrArg Except.ok (hg a)
  | error f => rfl

theorem skipIf_bare (c : Bool) (s : State) : skipIf c s.bare = (skipIf c s).bare := by
  cases c <;> rfl

theorem storeBytes_bare (base : Word) (bs : List Byte) (s : State) :
    storeBytes base bs s.bare = (storeBytes base bs s).map State.bare := by
  unfold storeBytes
  split <;> rfl

/-- CALL's push, and the jump after it. -/
theorem push_map_setPc_bare (op w target : Word) (s : State) :
    (push op w s.bare).map (State.setPc target) = ((push op w s).map (State.setPc target)).map State.bare := by
  rcases push_cases op w s with ⟨h, e⟩ | ⟨h, e⟩ <;> rw [e]
  · exact congrArg (Except.map _) (dif_pos h)
  · exact congrArg (Except.map _) (dif_neg (Nat.not_lt.mpr h))

/-- RET's pop, and the jump after it. -/
theorem pop_map_setPc_bare (op : Word) (s : State) :
    ((pop op s.bare).map fun r => r.2.setPc r.1) = ((pop op s).map fun r => r.2.setPc r.1).map State.bare := by
  rcases pop_cases op s with ⟨h, e⟩ | ⟨h, e⟩ <;> rw [e]
  · exact congrArg (Except.map _) (dif_pos h)
  · exact congrArg (Except.map _) (dif_neg h)

/-- LD Vx, K finds the same key down, or none. -/
theorem execLdVxK_bare {x : Fin 16} {s t : State} (h : execLdVxK x s = .next t) :
    execLdVxK x s.bare = .next t.bare := by
  have hkey : firstKeyDown s.bare = firstKeyDown s := rfl
  unfold execLdVxK at h ⊢
  rw [hkey]
  generalize firstKeyDown s = found at h ⊢
  cases found <;> cases h <;> rfl

/-- An instruction other than RND does the same with the record of faults and the number of draws forgotten. -/
theorem exec_bare {i : Instr} {s t : State} (hi : ∀ x kk, i ≠ .rnd x kk) (h : exec i s = .next t) :
    ∃ u, exec i s.bare = .next u ∧ u.bare = t.bare := by
  cases i with
  | rnd x kk => exact absurd rfl (hi x kk)
  | seByte | sneByte | seReg | sneReg =>
    cases h
    exact ⟨_, rfl, by rw [skipIf_bare]; rfl⟩
  | skp | sknp => exact settle_map_bare (fun _ => skipIf_bare _ _) h
  | drw | loadRegs => exact settle_map_bare (fun _ => rfl) h
  | ldB | storeRegs => exact settle_bare (storeBytes_bare _ _ s) h
  | callAddr nnn => exact settle_bare (push_map_setPc_bare _ s.pc (zextAddr nnn) s) h
  | ret => exact settle_bare (pop_map_setPc_bare _ s) h
  | ldVxK x => exact ⟨_, execLdVxK_bare h, rfl⟩
  | _ =>
    cases h
    exact ⟨_, rfl, rfl⟩

theorem exec_same_bare {i : Instr} {s s' t t' : State} (hi : ∀ x kk, i ≠ .rnd x kk) (hs : s.bare = s'.bare)
    (h : exec i s = .next t) (h' : exec i s' = .next t') : t.bare = t'.bare := by
  obtain ⟨u, hu, ht⟩ := exec_bare hi h
  obtain ⟨u', hu', ht'⟩ := exec_bare hi h'
  rw [← hs] at hu'
  rw [← ht, ← ht', Host.Outcome.next.inj (hu.symm.trans hu')]

/-! ### The phases of a step from the same machine -/

theorem endStep_bare (s : State) : (endStep s).bare = endStep s.bare :=
  apply_ite State.bare _ _ _

section same
variable {s s' : State} (hs : sameMachine s s')
include hs

theorem advance_same_bare : (advance s).bare = (advance s').bare := by
  obtain ⟨hmem, hv, hi, hpc, hstack, hsp, hdt, hst, hdisp, hkey⟩ := hs
  exact (bare_eq_iff _ _).mpr ⟨⟨hmem, hv, hi, congrArg (· + 2) hpc, hstack, hsp, hdt, hst, hdisp, hkey⟩, rfl⟩

theorem pc_same : s.pc = s'.pc := by
  obtain ⟨-, -, -, hpc, -⟩ := hs
  exact hpc

theorem opcodeAtPC_same : opcodeAtPC s = opcodeAtPC s' := by
  obtain ⟨hmem, -, -, hpc, -⟩ := hs
  simp only [opcodeAtPC, hmem, hpc]

theorem aboutToRun_same {i : Instr} (hi : aboutToRun i s) : aboutToRun i s' := by
  obtain ⟨hp, hd⟩ := hi
  exact ⟨pc_same hs ▸ hp, opcodeAtPC_same hs ▸ hd⟩

theorem takeFault_same_bare (f : Fault) : (takeFault f s).bare = (takeFault f s').bare :=
  (bare_eq_iff _ _).mpr ⟨hs, rfl⟩

end same

theorem step_of_fetch_fault {s : State} (hp : 0xFFE < s.pc.toNat) :
    step s = .next (takeFault (.addressFault s.pc) s) := by
  rcases fetch_cases s with ⟨hle, -⟩ | ⟨-, hf⟩
  · exact absurd hp (Nat.not_lt.mpr hle)
  · simp only [step, hf]

/-- Where RND does not run, the same machine steps to the same machine with the same result. -/
theorem step_same_bare {s s' t t' : State} (hs : sameMachine s s') (hi : ∀ x kk, ¬aboutToRun (.rnd x kk) s)
    (h : step s = .next t) (h' : step s' = .next t') : t.bare = t'.bare := by
  have hpc := pc_same hs
  have hop := opcodeAtPC_same hs
  have hadv := advance_same_bare hs
  rcases step_cases h with ⟨hp, rfl⟩ | ⟨op, r, hp, hf, hd, rfl⟩ | ⟨op, i, u, hp, hf, hd, he, rfl⟩
  · cases (step_of_fetch_fault (hpc ▸ hp)).symm.trans h'
    rw [hpc]
    exact takeFault_same_bare hs _
  · obtain ⟨-, rfl⟩ := fetch_ok hf
    cases (step_of_undefined (hpc ▸ hp) (hop ▸ hd)).symm.trans h'
    rw [hop]
    exact takeFault_same_bare ((bare_eq_iff _ _).mp hadv).1 _
  · obtain ⟨-, rfl⟩ := fetch_ok hf
    obtain ⟨u', he'⟩ := exists_exec_eq_next i (advance s')
    cases (step_of_decoded (hpc ▸ hp) (hop ▸ hd) he').symm.trans h'
    have hrnd : ∀ x kk, i ≠ .rnd x kk := fun x kk hx => hi x kk ⟨hp, hx ▸ hd⟩
    rw [endStep_bare, endStep_bare, exec_same_bare hrnd hadv he he']

/-- A step that runs RND writes the masked byte, and ticks. -/
theorem step_of_rnd {x : Fin 16} {kk : Byte} {s : State} (hi : aboutToRun (.rnd x kk) s) :
    step s = .next (tick ((advance s).draw8.2.setReg x (Config.draw s.draws &&& kk))) :=
  step_eq_tick hi rfl rfl

end Sys2Proof.Machine

namespace Sys2Proof
open Machine

/-- Settles O25: RND by its meaning, every other step because it commutes with forgetting the model's own fields. -/
theorem onlyRandomDependsOnTheEnvironment : Obligations.OnlyRandomDependsOnTheEnvironment := by
  unfold Obligations.OnlyRandomDependsOnTheEnvironment
  intro s s' t t' hs h h'
  by_cases hr : ∃ x kk, Claims.aboutToRun (.rnd x kk) s
  · obtain ⟨x, kk, hi⟩ := hr
    cases (step_of_rnd hi).symm.trans h
    cases (step_of_rnd (aboutToRun_same hs hi)).symm.trans h'
    refine ⟨rfl, fun hne => absurd hi (hne x kk), fun y ky hy => ?_⟩
    obtain ⟨rfl, -⟩ : x = y ∧ kk = ky := Instr.rnd.inj (Except.ok.inj (hi.2.symm.trans hy.2))
    obtain ⟨hmem, hv, hi, hpc, hstack, hsp, hdt, hst, hdisp, hkey⟩ := hs
    refine ⟨?_, fun r hr => ?_⟩
    · exact ⟨hmem, rfl, hi, congrArg (· + 2) hpc, hstack, hsp, congrArg countDown hdt, congrArg countDown hst, hdisp, hkey⟩
    · have hreg : s.reg r = s'.reg r := by rw [reg_eq, reg_eq, hv]
      simp [hr, hreg]
  · have hne : ∀ x kk, ¬Claims.aboutToRun (.rnd x kk) s := fun x kk hi => hr ⟨x, kk, hi⟩
    obtain ⟨hsame, hres⟩ := (bare_eq_iff t t').mp (step_same_bare hs hne h h')
    exact ⟨hres, fun _ => hsame, fun x kk hi => absurd hi (hne x kk)⟩

end Sys2Proof
end

/-! Arithmetic, logic, the random byte and the index register (41_arithmetic_logic.md, 43_random.md, 46_memory_index.md
section 2): each meaning is one write, given as a number or bit by bit. -/

section
namespace Sys2Proof.Machine
open Claims

/-! ### Reading back what a meaning wrote -/

theorem setReg_reg_same (s : State) (x : Fin 16) (b : Byte) : (s.setReg x b).reg x = b := by
  rw [setReg_reg, if_pos rfl]

theorem setReg_reg_of_ne (s : State) (b : Byte) {x r : Fin 16} (h : r ≠ x) : (s.setReg x b).reg r = s.reg r := by
  rw [setReg_reg, if_neg h]

theorem setRegThenFlag_reg_flag (s : State) (x : Fin 16) (r f : Byte) : (s.setRegThenFlag x r f).reg 15 = f := by
  rw [setRegThenFlag_reg, if_pos rfl]

theorem setRegThenFlag_reg_dest (s : State) (r f : Byte) {x : Fin 16} (h : x ≠ 15) : (s.setRegThenFlag x r f).reg x = r := by
  rw [setRegThenFlag_reg, if_neg h, if_pos rfl]

theorem setRegThenFlag_reg_of_ne (s : State) (b f : Byte) {x r : Fin 16} (hx : r ≠ x) (hf : r ≠ 15) :
    (s.setRegThenFlag x b f).reg r = s.reg r := by
  rw [setRegThenFlag_reg, if_neg hf, if_neg hx]

/-! ### The flags as numbers (R112) -/

theorem flagByte_toNat (p : Prop) [Decidable p] : (flagByte (decide p)).toNat = bit p := by
  by_cases h : p <;> simp [flagByte, bit, h]

theorem lowBitFlag_toNat (b : Byte) : (lowBitFlag b).toNat = b.toNat % 2 := by
  rw [lowBitFlag, BitVec.getLsbD, Nat.testBit_zero, flagByte_toNat, bit]
  split <;> omega

theorem highBitFlag_toNat (b : Byte) : (highBitFlag b).toNat = b.toNat / 128 := by
  have := b.isLt
  rw [highBitFlag, BitVec.getLsbD, Nat.testBit_eq_decide_div_mod_eq, flagByte_toNat, bit]
  split <;> omega

/-! ### The results as numbers -/

theorem sub_toNat_mod (a b : Byte) : (a - b).toNat = (a.toNat + 256 - b.toNat) % 256 := by
  bv_omega

theorem shiftRight_one_toNat (b : Byte) : (b >>> 1).toNat = b.toNat / 2 := by
  rw [BitVec.toNat_ushiftRight, Nat.shiftRight_eq_div_pow, Nat.pow_one]

theorem shiftLeft_one_toNat (b : Byte) : (b <<< 1).toNat = b.toNat * 2 % 256 := by
  rw [BitVec.toNat_shiftLeft, Nat.shiftLeft_eq, Nat.pow_one]

theorem glyphAddress_toNat (b : Byte) : (glyphAddress b).toNat = b.toNat * 5 := by
  unfold glyphAddress
  bv_omega

theorem add_zext16_toNat (w : Word) (b : Byte) : (w + zext16 b).toNat = (w.toNat + b.toNat) % 65536 := by
  bv_omega

/-! ### The two shapes of a meaning over registers -/

/-- A meaning that writes one register. -/
theorem exec_writes_one {i : Instr} {s : State} {x : Fin 16} {b : Byte} {P : Byte → Prop}
    (h : exec i s = .next (s.setReg x b)) (hP : P b) :
    ∃ t, exec i s = .next t ∧ P (t.reg x) ∧ (∀ r, r ≠ x → t.reg r = s.reg r) ∧ unchangedBut [.v] s t := by
  refine ⟨_, h, ?_, fun r hr => setReg_reg_of_ne s b hr, setReg_frame s x b⟩
  rwa [setReg_reg_same]

/-- A meaning that writes one register and then the flag. -/
theorem exec_writes_one_then_flag {i : Instr} {s : State} {x : Fin 16} {b f : Byte} {P Q : Byte → Prop}
    (h : exec i s = .next (s.setRegThenFlag x b f)) (hP : P b) (hQ : Q f) :
    ∃ t, exec i s = .next t ∧ (x ≠ 15 → P (t.reg x)) ∧ Q (t.reg 15) ∧ (∀ r, r ≠ x → r ≠ 15 → t.reg r = s.reg r) ∧
      unchangedBut [.v] s t := by
  refine ⟨_, h, fun hx => ?_, ?_, fun r hr hf => setRegThenFlag_reg_of_ne s b f hr hf, setRegThenFlag_frame s x b f⟩
  · rwa [setRegThenFlag_reg_dest s b f hx]
  · rwa [setRegThenFlag_reg_flag]

end Sys2Proof.Machine

namespace Sys2Proof
open Machine

/-- Settles O26: each meaning is one write of `V[x]`. -/
theorem immediateAndCopyInstructions : Obligations.ImmediateAndCopyInstructions := by
  unfold Obligations.ImmediateAndCopyInstructions
  intro x y kk s
  exact ⟨exec_writes_one (P := (· = kk)) rfl rfl,
    exec_writes_one (P := fun b => b.toNat = ((s.reg x).toNat + kk.toNat) % 256) rfl (BitVec.toNat_add _ _),
    exec_writes_one (P := (· = s.reg y)) rfl rfl⟩

/-- Settles O27: each meaning is one write of `V[x]`, read bit by bit. -/
theorem logicInstructions : Obligations.LogicInstructions := by
  unfold Obligations.LogicInstructions
  intro x y s
  exact ⟨exec_writes_one (P := fun b => ∀ j, j < 8 → b.getLsbD j = ((s.reg x).getLsbD j || (s.reg y).getLsbD j)) rfl
      fun _ _ => BitVec.getLsbD_or,
    exec_writes_one (P := fun b => ∀ j, j < 8 → b.getLsbD j = ((s.reg x).getLsbD j && (s.reg y).getLsbD j)) rfl
      fun _ _ => BitVec.getLsbD_and,
    exec_writes_one (P := fun b => ∀ j, j < 8 → b.getLsbD j = ((s.reg x).getLsbD j ^^ (s.reg y).getLsbD j)) rfl
      fun _ _ => BitVec.getLsbD_xor⟩

/-- Settles O28: the sum, then the carry. -/
theorem addSetsCarry : Obligations.AddSetsCarry := by
  unfold Obligations.AddSetsCarry
  exact fun x y s => exec_writes_one_then_flag (P := fun b => b.toNat = ((s.reg x).toNat + (s.reg y).toNat) % 256)
    (Q := fun f => f.toNat = Claims.bit ((s.reg x).toNat + (s.reg y).toNat > 255)) rfl (BitVec.toNat_add _ _)
    (flagByte_toNat _)

/-- Settles O29: the difference, then whether it was strictly positive. -/
theorem subtractionsSetStrictGreater : Obligations.SubtractionsSetStrictGreater := by
  unfold Obligations.SubtractionsSetStrictGreater
  intro x y s
  exact ⟨exec_writes_one_then_flag (P := fun b => b.toNat = ((s.reg x).toNat + 256 - (s.reg y).toNat) % 256)
      (Q := fun f => f.toNat = Claims.bit ((s.reg y).toNat < (s.reg x).toNat)) rfl (sub_toNat_mod _ _) (flagByte_toNat _),
    exec_writes_one_then_flag (P := fun b => b.toNat = ((s.reg y).toNat + 256 - (s.reg x).toNat) % 256)
      (Q := fun f => f.toNat = Claims.bit ((s.reg x).toNat < (s.reg y).toNat)) rfl (sub_toNat_mod _ _) (flagByte_toNat _)⟩

/-- Settles O30: the shifted register, then the bit shifted out. -/
theorem shiftsByOne : Obligations.ShiftsByOne := by
  unfold Obligations.ShiftsByOne
  intro x y s
  exact ⟨exec_writes_one_then_flag (P := fun b => b.toNat = (s.reg x).toNat / 2)
      (Q := fun f => f.toNat = (s.reg x).toNat % 2) rfl (shiftRight_one_toNat _) (lowBitFlag_toNat _),
    exec_writes_one_then_flag (P := fun b => b.toNat = (s.reg x).toNat * 2 % 256)
      (Q := fun f => f.toNat = (s.reg x).toNat / 128) rfl (shiftLeft_one_toNat _) (highBitFlag_toNat _)⟩

/-- Settles O37: the draw, then one write of the masked byte. -/
theorem randomIsMasked : Obligations.RandomIsMasked := by
  unfold Obligations.RandomIsMasked
  intro x kk s
  refine ⟨_, rfl, setReg_reg_same _ x _, fun j hj => ?_, rfl, fun r hr => setReg_reg_of_ne _ _ hr, draw8_setReg_frame s x _⟩
  rw [setReg_reg_same, BitVec.getLsbD_and, hj, Bool.and_false]

/-- Settles O45: each meaning is one write of `I`. -/
theorem indexInstructions : Obligations.IndexInstructions := by
  unfold Obligations.IndexInstructions
  exact fun x nnn s => ⟨⟨_, rfl, zextAddr_toNat nnn, setI_frame s _⟩, ⟨_, rfl, add_zext16_toNat s.i (s.reg x), setI_frame s _⟩,
    ⟨_, rfl, glyphAddress_toNat (s.reg x), setI_frame s _⟩⟩

end Sys2Proof
end

/-! Jumps, calls, skips, the keypad, and the halted states (42_control_flow.md, 45_timers_input.md section 2,
92_eei_decisions.md D22). -/

section
namespace Sys2Proof.Machine
open Safety Claims

/-! ### CALL and RET with the check given -/

theorem exec_callAddr_of_lt {s : State} (h : s.sp.toNat < 16) (nnn : BitVec 12) : exec (.callAddr nnn) s =
    .next { s with stack := s.stack.set s.sp.toNat s.pc, sp := s.sp + 1, pc := zextAddr nnn } := by
  rcases exec_callAddr_cases nnn s with ⟨_, e⟩ | ⟨h', -⟩
  · exact e
  · exact absurd h (Nat.not_lt.mpr h')

theorem exec_callAddr_of_le {s : State} (h : 16 ≤ s.sp.toNat) (nnn : BitVec 12) :
    exec (.callAddr nnn) s = .next (takeFault (.stackOverflow (encode (.callAddr nnn))) s) := by
  rcases exec_callAddr_cases nnn s with ⟨h', -⟩ | ⟨-, e⟩
  · exact absurd h (Nat.not_le.mpr h')
  · exact e

theorem exec_ret_of_range {s : State} (h : 1 ≤ s.sp.toNat ∧ s.sp.toNat ≤ 16) :
    exec .ret s = .next { s with sp := s.sp - 1, pc := s.stack[s.sp.toNat - 1] } := by
  rcases exec_ret_cases s with ⟨_, e⟩ | ⟨h', -⟩
  · exact e
  · exact absurd h h'

theorem exec_ret_of_not_range {s : State} (h : ¬(1 ≤ s.sp.toNat ∧ s.sp.toNat ≤ 16)) :
    exec .ret s = .next (takeFault (.stackUnderflow (encode .ret)) s) := by
  rcases exec_ret_cases s with ⟨h', -⟩ | ⟨-, e⟩
  · exact absurd h' h
  · exact e

theorem sp_add_one_toNat {b : Byte} (h : b.toNat < 16) : (b + 1).toNat = b.toNat + 1 := by
  bv_omega

/-! ### Skips -/

/-- A skip moves `PC` iff its condition holds, and writes nothing else. -/
theorem skipIf_spec (c : Bool) (s : State) :
    (skipIf c s).pc = (if c then s.pc + 2 else s.pc) ∧ unchangedBut [.pc] s (skipIf c s) :=
  ⟨skipIf_pc s c, skipIf_frame c s⟩

/-- A skip on the opposite of a condition. -/
theorem skipIf_not_spec (c : Bool) (s : State) :
    (skipIf (!c) s).pc = (if c then s.pc else s.pc + 2) ∧ unchangedBut [.pc] s (skipIf (!c) s) := by
  refine ⟨?_, skipIf_frame _ s⟩
  rw [skipIf_pc]
  cases c <;> rfl

/-- SE and SNE compare two bytes. -/
theorem skipIf_beq_spec (a b : Byte) (s : State) :
    (skipIf (a == b) s).pc = (if a = b then s.pc + 2 else s.pc) ∧ unchangedBut [.pc] s (skipIf (a == b) s) := by
  simpa only [beq_iff_eq] using skipIf_spec (a == b) s

theorem skipIf_bne_spec (a b : Byte) (s : State) :
    (skipIf (a != b) s).pc = (if a = b then s.pc else s.pc + 2) ∧ unchangedBut [.pc] s (skipIf (a != b) s) := by
  have h := skipIf_not_spec (a == b) s
  simp only [beq_iff_eq] at h
  exact h

/-! ### The keypad -/

/-- The key LD Vx, K reports, if there is one, is the least that is down. -/
theorem firstKeyDown_eq_some {s : State} {k : Nat} (hk : k < 16) (hdown : s.key.getLsbD k = true)
    (hup : ∀ j, j < k → s.key.getLsbD j = false) : firstKeyDown s = some k := by
  unfold firstKeyDown
  rw [List.find?_range_eq_some]
  exact ⟨hdown, List.mem_range.mpr hk, fun j hj => by simp [keyDown, hup j hj]⟩

theorem exec_ldVxK_of_some {s : State} {k : Nat} (h : firstKeyDown s = some k) (x : Fin 16) :
    exec (.ldVxK x) s = .next (s.setReg x (BitVec.ofNat 8 k)) := by
  rcases exec_ldVxK_cases x s with ⟨j, hj, e⟩ | ⟨h', -⟩
  · cases hj.symm.trans h
    exact e
  · cases h'.symm.trans h

theorem exec_ldVxK_of_none {s : State} (h : firstKeyDown s = none) (x : Fin 16) :
    exec (.ldVxK x) s = .next (s.setPc (s.pc - 2)) := by
  rcases exec_ldVxK_cases x s with ⟨j, hj, -⟩ | ⟨-, e⟩
  · cases hj.symm.trans h
  · exact e

/-! ### A step that ends where it began -/

/-- A step whose instruction takes `PC` back to where it was, and writes nothing else, writes the timers and the result. -/
theorem advance_setPc_tick_frame (s : State) :
    unchangedBut [.dt, .st, .fault] s (tick ((advance s).setPc s.pc)) := by
  simp [unchangedBut]

/-- A halted state decodes the jump to itself. -/
theorem aboutToRun_of_haltedAt {a : BitVec 12} {s : State} (h : haltedAt a s) : aboutToRun (.jpAddr a) s := by
  obtain ⟨-, -, hf⟩ := h
  obtain ⟨hp, hop⟩ := fetch_ok hf
  exact ⟨hp, hop ▸ decodeOp_group1 a⟩

/-- A halted state steps to itself, but for the timers and the result. -/
theorem step_of_haltedAt {a : BitVec 12} {s : State} (h : haltedAt a s) :
    step s = .next (tick ((advance s).setPc s.pc)) := by
  have hpc := h.1
  exact hpc ▸ step_eq_tick (aboutToRun_of_haltedAt h) rfl rfl

/-- Where both timers have run out and the last result is `Ok`, such a step changes nothing. -/
theorem tick_advance_setPc_eq_self {s : State} (hdt : s.dt = 0) (hst : s.st = 0) (hr : s.result = none) :
    tick ((advance s).setPc s.pc) = s := by
  obtain ⟨mem, v, i, pc, stack, sp, dt, st, disp, key, result, faults, draws⟩ := s
  subst hdt hst hr
  rfl

end Sys2Proof.Machine

namespace Sys2Proof
open Machine

/-- Settles O32: the meaning is one write of `PC`. -/
theorem jumpWithOffset : Obligations.JumpWithOffset := by
  unfold Obligations.JumpWithOffset
  exact fun nnn s => ⟨_, rfl, zextAddr_add_zext16_toNat nnn (s.reg 0), setPc_frame s _⟩

/-- Settles O33: by whether the stack has a free slot. -/
theorem callPushesReturnAddress : Obligations.CallPushesReturnAddress := by
  unfold Obligations.CallPushesReturnAddress
  refine fun nnn s => ⟨fun h => ⟨_, exec_callAddr_of_lt h nnn, ?_, sp_add_one_toNat h, zextAddr_toNat nnn, fun k hk => ?_,
    setStack_setSp_setPc_frame s _ _ _⟩, fun h => ⟨_, exec_callAddr_of_le h nnn, faultsWith_takeFault _ s⟩⟩
  · exact Vector.getElem_set_self h
  · exact Vector.getElem_set_ne h k.isLt (Ne.symm hk)

/-- Settles O34: by whether the stack pointer is in 1..16. -/
theorem returnPopsReturnAddress : Obligations.ReturnPopsReturnAddress := by
  unfold Obligations.ReturnPopsReturnAddress
  refine fun s => ⟨fun h => ⟨_, exec_ret_of_range h, rfl, ?_, setSp_setPc_frame s _ _⟩, fun h => ?_⟩
  · show (s.sp - 1).toNat = s.sp.toNat - 1
    obtain ⟨h1, -⟩ := h
    bv_omega
  · exact ⟨_, exec_ret_of_not_range (by omega), faultsWith_takeFault _ s⟩

/-- Settles O35: RET takes the slot that CALL wrote. -/
theorem returnUndoesCall : Obligations.ReturnUndoesCall := by
  unfold Obligations.ReturnUndoesCall
  refine fun nnn s h => ⟨_, exec_callAddr_of_lt h nnn, fun u hstack hsp => ?_⟩
  have hu : u.sp.toNat = s.sp.toNat + 1 := by rw [hsp, sp_add_one_toNat h]
  refine ⟨_, exec_ret_of_range (by omega), ?_, (congrArg (· - 1) hsp).trans (BitVec.add_sub_cancel s.sp 1)⟩
  simp [hstack, hu]

/-- Settles O36: each meaning is one skip. -/
theorem skipsOnComparison : Obligations.SkipsOnComparison := by
  unfold Obligations.SkipsOnComparison
  exact fun x y kk low s => ⟨⟨_, rfl, skipIf_beq_spec _ _ s⟩, ⟨_, rfl, skipIf_bne_spec _ _ s⟩, ⟨_, rfl, skipIf_beq_spec _ _ s⟩,
    ⟨_, rfl, skipIf_bne_spec _ _ s⟩⟩

/-- Settles O43: by whether `V[x]` is a key number. -/
theorem skipsOnKey : Obligations.SkipsOnKey := by
  unfold Obligations.SkipsOnKey
  intro x s
  rcases exec_skp_cases x s with ⟨hx, e⟩ | ⟨hx, e⟩ <;> rcases exec_sknp_cases x s with ⟨hx', e'⟩ | ⟨hx', e'⟩
  · exact ⟨fun _ => ⟨⟨_, e, skipIf_spec _ s⟩, ⟨_, e', skipIf_not_spec _ s⟩⟩, fun h => absurd h (Nat.not_lt.mpr hx)⟩
  · exact absurd hx' (Nat.not_lt.mpr hx)
  · exact absurd hx (Nat.not_lt.mpr hx')
  · exact ⟨fun h => absurd hx (Nat.not_lt.mpr h),
      fun _ => ⟨⟨_, e, faultsWith_takeFault _ s⟩, ⟨_, e', faultsWith_takeFault _ s⟩⟩⟩

/-- Settles O44: by whether a key is down; the waiting step takes back its advance. -/
theorem waitForKey : Obligations.WaitForKey := by
  unfold Obligations.WaitForKey
  refine fun x s => ⟨fun k hk hdown hup => ?_, fun hup => ⟨?_, fun hi => ?_⟩⟩
  · refine ⟨_, exec_ldVxK_of_some (firstKeyDown_eq_some hk hdown hup) x, ?_, fun r hr => setReg_reg_of_ne s _ hr,
      setReg_frame s x _⟩
    rw [setReg_reg_same, BitVec.toNat_ofNat, Nat.mod_eq_of_lt (by omega)]
  · exact ⟨_, exec_ldVxK_of_none (firstKeyDown_none.mpr hup) x, rfl, setPc_frame s _⟩
  · have hback : (advance s).pc - 2 = s.pc := BitVec.add_sub_cancel s.pc 2
    have he := exec_ldVxK_of_none (s := advance s) (firstKeyDown_none.mpr hup) x
    rw [hback] at he
    exact ⟨_, step_eq_tick hi he rfl, rfl, rfl, countDown_toNat s.dt, countDown_toNat s.st, advance_setPc_tick_frame s⟩

/-- Settles O59: the step takes `PC` back to the jump, which it has not touched. -/
theorem haltedStatesStayHalted : Obligations.HaltedStatesStayHalted := by
  unfold Obligations.HaltedStatesStayHalted
  exact fun a s h => ⟨_, step_of_haltedAt h, h, rfl, rfl, countDown_toNat s.dt, countDown_toNat s.st,
    advance_setPc_tick_frame s, tick_advance_setPc_eq_self⟩

end Sys2Proof
end

/-! Drawing, once and twice, and the frame the host reads (44_display.md R142 to R144, 47_host_operations.md R189). -/

section
namespace Sys2Proof.Machine
open Safety Claims

/-! ### One drawing -/

theorem exec_drw_of_fits {n : Fin 16} {s : State} (h : n.val = 0 ∨ s.i.toNat + n.val - 1 ≤ 0xFFF) (x y : Fin 16) :
    exec (.drw x y n) s = .next (drawSprite (s.mem.readFrom s.i.toNat n.val) (s.reg x) (s.reg y) s) := by
  rcases exec_drw_cases x y n s with ⟨-, e⟩ | ⟨h', -⟩
  · exact e
  · omega

theorem exec_drw_of_not_fits {n : Fin 16} {s : State} (h : 0 < n.val ∧ 0xFFF < s.i.toNat + n.val - 1) (x y : Fin 16) :
    exec (.drw x y n) s = .next (takeFault (.addressFault s.i) s) := by
  rcases exec_drw_cases x y n s with ⟨h', -⟩ | ⟨-, e⟩
  · omega
  · exact e

section drawSprite
variable (bs : List Byte) (vx vy : Byte) (s : State)

/-- Drawing flips the cells under a set bit of the sprite. -/
theorem drawSprite_cell {px py : Nat} (hx : px ≤ 63) (hy : py ≤ 31) :
    (drawSprite bs vx vy s).disp.cell px py = (s.disp.cell px py ^^ spriteLit bs vx.toNat vy.toNat px py) :=
  drawRows_cell bs vx.toNat vy.toNat (s.disp, false) hx hy

theorem drawSprite_flag : (drawSprite bs vx vy s).reg 15 = flagByte (drawRows bs vx.toNat vy.toNat (s.disp, false)).2 := by
  rw [drawSprite_reg, if_pos rfl]

theorem flagByte_eq_one_iff (b : Bool) : flagByte b = 1 ↔ b = true := by
  cases b <;> decide

/-- Drawing reports a collision iff a lit cell lay under a set bit of the sprite. -/
theorem drawSprite_flag_eq_one_iff : (drawSprite bs vx vy s).reg 15 = 1 ↔
    ∃ px py, px ≤ 63 ∧ py ≤ 31 ∧ spriteLit bs vx.toNat vy.toNat px py = true ∧ s.disp.cell px py = true := by
  rw [drawSprite_flag, flagByte_eq_one_iff, drawRows_coll]
  simp

/-- Drawing reports a collision iff it has turned a cell off. -/
theorem drawSprite_flag_eq_one_iff_turned_off : (drawSprite bs vx vy s).reg 15 = 1 ↔
    ∃ px py, px ≤ 63 ∧ py ≤ 31 ∧ s.disp.cell px py = true ∧ (drawSprite bs vx vy s).disp.cell px py = false := by
  rw [drawSprite_flag_eq_one_iff]
  refine exists_congr fun px => exists_congr fun py => and_congr_right fun hx => and_congr_right fun hy => ?_
  rw [drawSprite_cell bs vx vy s hx hy]
  cases s.disp.cell px py <;> simp

/-! ### The same drawing again -/

/-- Drawing a sprite twice at one place restores the grid (R144). -/
theorem drawSprite_drawSprite_disp : (drawSprite bs vx vy (drawSprite bs vx vy s)).disp = s.disp := by
  refine grid_ext fun px py hx hy => ?_
  rw [drawSprite_cell _ _ _ _ hx hy, drawSprite_cell _ _ _ _ hx hy, Bool.xor_assoc, Bool.xor_self, Bool.xor_false]

/-- The second drawing reports a collision iff a cell under a set bit was unlit before the first. -/
theorem drawSprite_drawSprite_flag_eq_one_iff : (drawSprite bs vx vy (drawSprite bs vx vy s)).reg 15 = 1 ↔
    ∃ px py, px ≤ 63 ∧ py ≤ 31 ∧ s.disp.cell px py = false ∧ spriteLit bs vx.toNat vy.toNat px py = true := by
  rw [drawSprite_flag_eq_one_iff]
  refine exists_congr fun px => exists_congr fun py => and_congr_right fun hx => and_congr_right fun hy => ?_
  rw [drawSprite_cell bs vx vy s hx hy]
  cases s.disp.cell px py <;> simp

/-- Where the first drawing has met no lit cell, every cell under a set bit was unlit before it. -/
theorem cell_eq_false_of_no_collision {px py : Nat} (hx : px ≤ 63) (hy : py ≤ 31)
    (hlit : spriteLit bs vx.toNat vy.toNat px py = true) (hflag : (drawSprite bs vx vy s).reg 15 = 0) :
    s.disp.cell px py = false := by
  by_contra hcell
  rw [Bool.not_eq_false] at hcell
  rw [(drawSprite_flag_eq_one_iff bs vx vy s).mpr ⟨px, py, hx, hy, hlit, hcell⟩] at hflag
  exact absurd hflag (by decide)

end drawSprite

/-- The second DRW at the same place draws the same sprite, if the first has not overwritten a coordinate. -/
theorem exec_drw_again {x y n : Fin 16} {s : State} (hx : x ≠ 15) (hy : y ≠ 15)
    (h : n.val = 0 ∨ s.i.toNat + n.val - 1 ≤ 0xFFF) {bs : List Byte} (hbs : s.mem.readFrom s.i.toNat n.val = bs) :
    exec (.drw x y n) (drawSprite bs (s.reg x) (s.reg y) s) =
      .next (drawSprite bs (s.reg x) (s.reg y) (drawSprite bs (s.reg x) (s.reg y) s)) := by
  subst hbs
  have e := exec_drw_of_fits (s := drawSprite (s.mem.readFrom s.i.toNat n.val) (s.reg x) (s.reg y) s) h x y
  rwa [drawSprite_reg, if_neg hx, drawSprite_reg, if_neg hy] at e

/-! ### The frame -/

theorem readFrame_of_length_ne {buffer : List Byte} (h : buffer.length ≠ 2048) (s : State) :
    readFrame buffer s = .error .size :=
  if_pos h

/-- Byte `64 py + px` of the frame shows cell `(px, py)`. -/
theorem frame_getD (s : State) {px py : Nat} (hx : px < 64) (hy : py < 32) :
    (frame s).getD (py * 64 + px) 0 = if s.disp.cell px py then 255 else 0 := by
  have hc : py * 64 + px < 2048 := by omega
  have hmod : (py * 64 + px) % 64 = px := by omega
  have hdiv : (py * 64 + px) / 64 = py := by omega
  simp [frame, List.getD, hc, hmod, hdiv, onSentinel]

end Sys2Proof.Machine

namespace Sys2Proof
open Machine

/-- Settles O39: cell by cell, and a collision is a cell turned off. -/
theorem drawXorsSprite : Obligations.DrawXorsSprite := by
  unfold Obligations.DrawXorsSprite
  refine fun x y n s => ⟨fun h => ⟨_, exec_drw_of_fits h x y, fun px py => drawSprite_cell _ _ _ s, ?_,
    drawSprite_flag_eq_one_iff_turned_off _ _ _ s, fun r hr => ?_, drawSprite_frame _ _ _ s⟩,
    fun h => ⟨_, exec_drw_of_not_fits h x y, faultsWith_takeFault _ s⟩⟩
  · rw [drawSprite_flag]
    exact flagByte_eq_zero_or_one _
  · rw [drawSprite_reg, if_neg hr]

/-- Settles O40: the second drawing flips the same cells back, and meets those that the first turned on. -/
theorem drawTwiceRestoresGrid : Obligations.DrawTwiceRestoresGrid := by
  unfold Obligations.DrawTwiceRestoresGrid
  refine fun x y n s hx hy h => ⟨_, _, exec_drw_of_fits h x y, exec_drw_again hx hy h rfl, drawSprite_drawSprite_disp _ _ _ s,
    drawSprite_drawSprite_flag_eq_one_iff _ _ _ s, fun hflag => ?_⟩
  rw [drawSprite_drawSprite_flag_eq_one_iff]
  refine exists_congr fun px => exists_congr fun py => and_congr_right fun hpx => and_congr_right fun hpy => ?_
  exact and_iff_right_of_imp fun hlit => cell_eq_false_of_no_collision _ _ _ s hpx hpy hlit hflag

/-- Settles O53: the frame is the grid's cells, row by row. -/
theorem readFrameShowsGrid : Obligations.ReadFrameShowsGrid := by
  unfold Obligations.ReadFrameShowsGrid
  exact fun buffer s => ⟨fun h => ⟨_, congrArg (answerBytes s) (readFrame_of_length h s), length_frame s,
    fun _ _ => frame_getD s⟩, fun h => congrArg (answerBytes s) (readFrame_of_length_ne h s)⟩

end Sys2Proof
end

/-! The instructions that store to and load from memory (46_memory_index.md section 3, 20_memory.md section 6). -/

section
namespace Sys2Proof.Machine
open Claims

/-! ### A range written, read back -/

/-- What a memory reads after a range inside it is written. -/
theorem read_writeFrom {m : Memory} (hm : m.wf) {a : Nat} {bs : List Byte} (h : a + bs.length ≤ 4096) (k : Nat) :
    (m.writeFrom a bs).read k = if a ≤ k ∧ k < a + bs.length then bs.getD (k - a) 0 else m.read k := by
  split
  case isTrue hk => exact read_writeFrom_same bs hm h hk.1 hk.2
  case isFalse hk => exact read_writeFrom_other bs m (by omega)

/-- Byte `k` of the range is byte `k` of what was written. -/
theorem read_writeFrom_add {m : Memory} (hm : m.wf) {a : Nat} {bs : List Byte} (h : a + bs.length ≤ 4096) {k : Nat}
    (hk : k < bs.length) : (m.writeFrom a bs).read (a + k) = bs.getD k 0 := by
  rw [read_writeFrom hm h, if_pos (by omega), Nat.add_sub_cancel_left]

/-! ### The bytes stored -/

theorem regsUpTo_getD {x : Fin 16} (s : State) {k : Nat} (hk : k ≤ x.val) :
    (regsUpTo x s).getD k 0 = s.v.toList.getD k 0 := by
  rw [regsUpTo, List.getD, List.getD, List.getElem?_take_of_lt (Nat.lt_succ_of_le hk)]

theorem toList_getD_eq_reg (s : State) (k : Fin 16) : s.v.toList.getD k.val 0 = s.reg k := by
  simp [List.getD, reg_eq]

/-- The digits as numbers: none of them needs more than a byte. -/
theorem decimalDigits_toNat (b : Byte) :
    ((decimalDigits b).getD 0 0).toNat = b.toNat / 100 ∧ ((decimalDigits b).getD 1 0).toNat = b.toNat / 10 % 10 ∧
      ((decimalDigits b).getD 2 0).toNat = b.toNat % 10 := by
  have hb := b.isLt
  have digit : ∀ {n : Nat}, n < 256 → (BitVec.ofNat 8 n).toNat = n := fun h =>
    (BitVec.toNat_ofNat _ _).trans (Nat.mod_eq_of_lt h)
  exact ⟨digit (by omega), digit (by omega), digit (by omega)⟩

/-! ### The three instructions with the check given -/

section checked
variable {s : State} (x : Fin 16)

theorem exec_ldB_of_le (h : s.i.toNat + 2 ≤ 0xFFF) :
    exec (.ldB x) s = .next { s with mem := s.mem.writeFrom s.i.toNat (decimalDigits (s.reg x)) } := by
  rcases exec_ldB_cases x s with ⟨-, e⟩ | ⟨h', -⟩
  · exact e
  · omega

theorem exec_ldB_of_lt (h : 0xFFF < s.i.toNat + 2) : exec (.ldB x) s = .next (takeFault (.addressFault s.i) s) := by
  rcases exec_ldB_cases x s with ⟨h', -⟩ | ⟨-, e⟩
  · omega
  · exact e

variable {x}

theorem exec_storeRegs_of_le (h : s.i.toNat + x.val ≤ 0xFFF) :
    exec (.storeRegs x) s = .next { s with mem := s.mem.writeFrom s.i.toNat (regsUpTo x s) } := by
  rcases exec_storeRegs_cases x s with ⟨-, e⟩ | ⟨h', -⟩
  · exact e
  · omega

theorem exec_storeRegs_of_lt (h : 0xFFF < s.i.toNat + x.val) :
    exec (.storeRegs x) s = .next (takeFault (.addressFault s.i) s) := by
  rcases exec_storeRegs_cases x s with ⟨h', -⟩ | ⟨-, e⟩
  · omega
  · exact e

theorem exec_loadRegs_of_le (h : s.i.toNat + x.val ≤ 0xFFF) :
    exec (.loadRegs x) s = .next (setRegsUpTo x (s.mem.readFrom s.i.toNat (x.val + 1)) s) := by
  rcases exec_loadRegs_cases x s with ⟨-, e⟩ | ⟨h', -⟩
  · exact e
  · omega

theorem exec_loadRegs_of_lt (h : 0xFFF < s.i.toNat + x.val) :
    exec (.loadRegs x) s = .next (takeFault (.addressFault s.i) s) := by
  rcases exec_loadRegs_cases x s with ⟨h', -⟩ | ⟨-, e⟩
  · omega
  · exact e

end checked

/-- Address `I + k` holds digit `k` after a store. -/
theorem read_ldB {s : State} (hs : s.mem.wf) (b : Byte) (h : s.i.toNat + 2 ≤ 0xFFF) {k : Nat} (hk : k < 3) :
    (s.mem.writeFrom s.i.toNat (decimalDigits b)).read (s.i.toNat + k) = (decimalDigits b).getD k 0 := by
  have hlen := decimalDigits_length b
  exact read_writeFrom_add hs (by omega) (by omega)

/-- Address `I + k` holds register `k` after a store. -/
theorem read_storeRegs {s : State} (hs : s.mem.wf) {x k : Fin 16} (h : s.i.toNat + x.val ≤ 0xFFF) (hk : k ≤ x) :
    (s.mem.writeFrom s.i.toNat (regsUpTo x s)).read (s.i.toNat + k.val) = s.reg k := by
  have hlen := regsUpTo_length x s
  have hkx : k.val ≤ x.val := hk
  rw [read_writeFrom_add hs (by omega) (by omega), regsUpTo_getD s hkx, toList_getD_eq_reg]

/-- Register `k` holds the byte at address `I + k` after a load. -/
theorem reg_loadRegs {s : State} {x k : Fin 16} (hk : k ≤ x) :
    (setRegsUpTo x (s.mem.readFrom s.i.toNat (x.val + 1)) s).reg k = s.mem.read (s.i.toNat + k.val) := by
  have hkx : k.val < x.val + 1 := Nat.lt_succ_of_le hk
  rw [setRegsUpTo_reg, if_pos hk, readFrom_getD _ _ hkx]

/-! ### A store over the next opcode -/

/-- A store inside a step leaves memory reading as `storedByte` says. -/
theorem exec_store_read {i : Instr} {x : Fin 16} {s : State} (hi : i = .storeRegs x ∨ i = .ldB x) (hs : s.mem.wf)
    (hpre : preconditionFault i s = none) :
    ∃ m, exec i (advance s) = .next { advance s with mem := m } ∧ ∀ a, m.read a = storedByte i s a := by
  rcases hi with rfl | rfl
  · have hlen := regsUpTo_length x s
    have hfit : s.i.toNat + x.val ≤ 0xFFF := by simpa [preconditionFault] using hpre
    refine ⟨_, exec_storeRegs_of_le (s := advance s) hfit, fun a => ?_⟩
    change (s.mem.writeFrom s.i.toNat (regsUpTo x s)).read a = storedByte _ s a
    rw [read_writeFrom hs (by omega), hlen, storedByte]
    by_cases ha : s.i.toNat ≤ a ∧ a ≤ s.i.toNat + x.val
    · rw [if_pos ha, if_pos (by omega), regsUpTo_getD s (by omega)]
    · rw [if_neg ha, if_neg (by omega)]
  · have hlen := decimalDigits_length (s.reg x)
    have hfit : s.i.toNat + 2 ≤ 0xFFF := by simpa [preconditionFault] using hpre
    refine ⟨_, exec_ldB_of_le (s := advance s) x hfit, fun a => ?_⟩
    change (s.mem.writeFrom s.i.toNat (decimalDigits (s.reg x))).read a = storedByte _ s a
    rw [read_writeFrom hs (by omega), hlen, storedByte]
    by_cases h0 : a = s.i.toNat
    · simp [h0, decimalDigits]
    · by_cases h1 : a = s.i.toNat + 1
      · simp [h1, decimalDigits]
      · by_cases h2 : a = s.i.toNat + 2
        · simp [h2, decimalDigits]
        · rw [if_neg h0, if_neg h1, if_neg h2, if_neg (by omega)]

/-- What a fetch reads two bytes further on, from the bytes of memory. -/
theorem fetch_of_pc_eq {t : State} {n : Nat} (hpc : t.pc.toNat = n) (hn : n ≤ 0xFFE) :
    fetch t = .ok (t.mem.read n ++ t.mem.read (n + 1)) := by
  subst hpc
  exact fetch_of_pc_le hn

end Sys2Proof.Machine

namespace Sys2Proof
open Machine

/-- Settles O46: three digits written from `I` up, or the check's fault. -/
theorem storeDecimalDigits : Obligations.StoreDecimalDigits := by
  unfold Obligations.StoreDecimalDigits
  refine fun x s hs => ⟨fun h => ?_, fun h => ⟨_, exec_ldB_of_lt x h, faultsWith_takeFault _ s⟩⟩
  obtain ⟨hhundreds, htens, hunits⟩ := decimalDigits_toNat (s.reg x)
  refine ⟨_, exec_ldB_of_le x h, ?_, ?_, ?_, fun a ha => ?_, setMem_frame s _⟩
  · rw [← hhundreds]
    exact congrArg BitVec.toNat (read_ldB hs _ h (by decide : 0 < 3))
  · rw [← htens, read_ldB hs _ h (by decide)]
  · rw [← hunits, read_ldB hs _ h (by decide)]
  · refine read_writeFrom_other _ _ ?_
    rw [decimalDigits_length]
    omega

/-- Settles O47: one range write of the registers, or the check's fault. -/
theorem storeRegisters : Obligations.StoreRegisters := by
  unfold Obligations.StoreRegisters
  refine fun x s hs => ⟨fun h => ⟨_, exec_storeRegs_of_le h, fun k => read_storeRegs hs h, fun a ha => ?_,
    setMem_frame s _⟩, fun h => ⟨_, exec_storeRegs_of_lt h, faultsWith_takeFault _ s⟩⟩
  refine read_writeFrom_other _ _ ?_
  rw [regsUpTo_length]
  omega

/-- Settles O48: one write of the registers up to `x`, or the check's fault. -/
theorem loadRegisters : Obligations.LoadRegisters := by
  unfold Obligations.LoadRegisters
  refine fun x s => ⟨fun h => ⟨_, exec_loadRegs_of_le h, fun k => reg_loadRegs, fun k hk => ?_, setRegsUpTo_frame x _ s⟩,
    fun h => ⟨_, exec_loadRegs_of_lt h, faultsWith_takeFault _ s⟩⟩
  rw [setRegsUpTo_reg, if_neg (Fin.not_le.mpr hk)]

/-- Settles O49: the load reads the addresses that the store wrote. -/
theorem loadRestoresStoredRegisters : Obligations.LoadRestoresStoredRegisters := by
  unfold Obligations.LoadRestoresStoredRegisters
  refine fun x s hs h => ⟨_, exec_storeRegs_of_le h, fun u hmem hi => ?_⟩
  refine ⟨_, exec_loadRegs_of_le (by rwa [hi]), fun k hk => ?_⟩
  rw [reg_loadRegs hk, hmem, hi]
  exact read_storeRegs hs h hk

/-- Settles O50: the step leaves memory as the store does, and the next fetch reads it there. -/
theorem storedBytesAreFetchedNext : Obligations.StoredBytesAreFetchedNext := by
  unfold Obligations.StoredBytesAreFetchedNext
  intro i x s hi hs hrun hpre hpc
  obtain ⟨m, he, hread⟩ := exec_store_read hi hs hpre
  have hnext := advance_pc_toNat hrun.1
  refine ⟨_, step_eq_tick hrun he rfl, rfl, hnext, ?_⟩
  rw [← hread, ← hread]
  exact fetch_of_pc_eq hnext (by omega)

end Sys2Proof
end

/-! `set_state` and the two round trips (48_state_serializer.md R196 to R200). -/

section
namespace Sys2Proof.Machine
open Safety

/-! ### Slices of a blob -/

/-- A list whose entries are those of `bytes` from `n` on is a slice of `bytes`. -/
theorem eq_slice {part bytes : List Byte} {n l : Nat} (hlen : part.length = l) (hn : n + l ≤ bytes.length)
    (h : ∀ k, k < l → part.getD k 0 = bytes.getD (n + k) 0) : part = (bytes.drop n).take l := by
  refine List.ext_getElem (by simp; omega) fun k hk _ => ?_
  have hkl : k < l := hlen ▸ hk
  have hkn : n + k < bytes.length := by omega
  simpa [List.getD, hk, hkn] using h k hkl

/-- The same for a list of elements of `m` bytes each. -/
theorem flatMap_eq_slice {α : Type} {f : α → List Byte} {m : Nat} (hf : ∀ a, (f a).length = m) {as : List α}
    {bytes : List Byte} {n : Nat} (hn : n + m * as.length ≤ bytes.length)
    (h : ∀ (q : Nat) (hq : q < as.length) (r : Nat), r < m → (f as[q]).getD r 0 = bytes.getD (n + m * q + r) 0) :
    as.flatMap f = (bytes.drop n).take (m * as.length) := by
  refine eq_slice ?_ hn fun k hk => ?_
  · simp [List.length_flatMap, hf, Nat.mul_comm]
  · have hm : 0 < m := Nat.pos_of_ne_zero fun h0 => by simp [h0] at hk
    have hq : k / m < as.length := Nat.div_lt_of_lt_mul hk
    have hr := Nat.mod_lt k hm
    have hbyte := getD_flatMap hf 0 hq hr
    rw [h _ hq _ hr, Nat.div_add_mod, Nat.add_assoc, Nat.div_add_mod] at hbyte
    exact hbyte

theorem wordAt_getD (bytes : List Byte) (n : Nat) {r : Nat} (hr : r < 2) :
    (bigEndian (wordAt bytes n)).getD r 0 = bytes.getD (n + r) 0 := by
  match r, hr with
  | 0, _ => exact highByte_opcodeOfBytes _ _
  | 1, _ => exact lowByte_opcodeOfBytes _ _

theorem rowAt_getD (bytes : List Byte) (n : Nat) {r : Nat} (hr : r < 8) :
    (rowBytes (rowAt bytes n)).getD r 0 = bytes.getD (n + r) 0 := by
  have hbyte : (rowBytes (rowAt bytes n)).getD r 0 = (rowAt bytes n).extractLsb' (8 * r) 8 := by
    simp [rowBytes, List.getD, hr]
  rw [hbyte]
  unfold rowAt
  interval_cases r <;>
    simp (disch := decide) only [extract_low, extract_high, Nat.reduceMul, Nat.reduceSub, BitVec.extractLsb'_eq_self,
      Nat.add_zero]

theorem bigEndian_wordAt {bytes : List Byte} {n : Nat} (hn : n + 2 ≤ bytes.length) :
    bigEndian (wordAt bytes n) = (bytes.drop n).take 2 :=
  eq_slice (length_bigEndian _) hn fun _ => wordAt_getD bytes n

/-! ### The parts of a restored machine -/

section decode
variable {bytes : List Byte} (h : bytes.length = 4409) (s : State)
include h

theorem decodeBlob_memPart : (decodeBlob bytes s).mem.readFrom 0 4096 = (bytes.drop 0).take 4096 := by
  refine eq_slice (readFrom_length _ _ _) (by omega) fun k hk => ?_
  have htake : (bytes.take 4096).length = 4096 := by rw [List.length_take]; omega
  rw [readFrom_getD _ _ hk, Nat.zero_add]
  change (Memory.ofBytes 0 (bytes.take 4096)).read k = _
  rw [read_ofBytes _ (by omega) (Nat.zero_le k) (by omega), Nat.sub_zero, List.getD, List.getD, List.getElem?_take_of_lt hk]

theorem decodeBlob_regsPart : (decodeBlob bytes s).v.toList = (bytes.drop 4096).take 16 := by
  refine eq_slice (by simp) (by omega) fun k hk => ?_
  simp [decodeBlob, List.getD, hk]

theorem decodeBlob_stackPart :
    (decodeBlob bytes s).stack.toList.flatMap bigEndian = (bytes.drop 4116).take 32 := by
  have hlen : (decodeBlob bytes s).stack.toList.length = 16 := by simp
  have hparts := flatMap_eq_slice (as := (decodeBlob bytes s).stack.toList) (bytes := bytes) (n := 4116) length_bigEndian
    (by omega) fun q hq r hr => by simpa [decodeBlob] using wordAt_getD bytes (4116 + 2 * q) hr
  rwa [hlen] at hparts

theorem decodeBlob_dispPart :
    (decodeBlob bytes s).disp.toList.flatMap rowBytes = (bytes.drop 4151).take 256 := by
  have hlen : (decodeBlob bytes s).disp.toList.length = 32 := by simp
  have hparts := flatMap_eq_slice (as := (decodeBlob bytes s).disp.toList) (bytes := bytes) (n := 4151) length_rowBytes
    (by omega) fun q hq r hr => by simpa [decodeBlob] using rowAt_getD bytes (4151 + 8 * q) hr
  rwa [hlen] at hparts

theorem decodeBlob_bytesPart :
    [(decodeBlob bytes s).sp, (decodeBlob bytes s).dt, (decodeBlob bytes s).st] = (bytes.drop 4148).take 3 := by
  refine eq_slice rfl (by omega) fun k hk => ?_
  match k, hk with
  | 0, _ | 1, _ | 2, _ => rfl

/-- The parts of a machine restored from a blob are the blob cut at the lengths of the parts. -/
theorem blobParts_decodeBlob : blobParts (decodeBlob bytes s) = blobPartLengths.splitLengths bytes := by
  have hi : bigEndian (decodeBlob bytes s).i = (bytes.drop 4112).take 2 := bigEndian_wordAt (by omega)
  have hpc : bigEndian (decodeBlob bytes s).pc = (bytes.drop 4114).take 2 := bigEndian_wordAt (by omega)
  have hkey : bigEndian (decodeBlob bytes s).key = (bytes.drop 4407).take 2 := bigEndian_wordAt (by omega)
  rw [blobParts, decodeBlob_memPart h, decodeBlob_regsPart h, hi, hpc, decodeBlob_stackPart h, decodeBlob_bytesPart h,
    decodeBlob_dispPart h, hkey]
  simp [blobPartLengths]

/-- Saving a restored machine gives the blob back. -/
theorem getState_decodeBlob : getState (decodeBlob bytes s) = bytes := by
  rw [getState_eq_flatten, blobParts_decodeBlob h]
  exact List.flatten_splitLengths bytes blobPartLengths (Nat.le_of_eq h)

theorem perform_setState_of_length : perform (.setState bytes) s = (.done, decodeBlob bytes s) :=
  congrArg (answer s) (if_neg (not_not_intro h))

end decode

theorem perform_setState_of_length_ne {bytes : List Byte} (h : bytes.length ≠ 4409) (s : State) :
    perform (.setState bytes) s = (.failed .size, s) :=
  congrArg (answer s) (if_pos h)

/-- Restoring a saved machine gives the same machine, since both save to the same blob. -/
theorem sameMachine_decodeBlob_getState {s : State} (hs : s.mem.wf) (s' : State) :
    sameMachine (decodeBlob (getState s) s') s :=
  sameMachine_of_getState_eq (decodeBlob_wf _ s') hs (getState_decodeBlob (length_getState s) s')

end Sys2Proof.Machine

namespace Sys2Proof
open Machine

/-- Settles O58: the parts of the restored machine are the blob, cut. -/
theorem saveAfterRestore : Obligations.SaveAfterRestore := by
  unfold Obligations.SaveAfterRestore
  exact fun bytes s => ⟨fun h => ⟨_, perform_setState_of_length h s, getState_decodeBlob h s⟩,
    fun h => perform_setState_of_length_ne h s⟩

/-- Settles O57: the other round trip, through the blob that both machines save to. -/
theorem restoreAfterSave : Obligations.RestoreAfterSave := by
  unfold Obligations.RestoreAfterSave
  exact fun s s' hs => ⟨_, perform_setState_of_length (length_getState s) s',
    sameMachine_decodeBlob_getState hs s'⟩

end Sys2Proof
end

/-! The run of the reset machine with no image (70_reset_and_hazards.md R241). -/

section
namespace Sys2Proof.Machine
open Claims

/-- One step more at the end of a run. -/
theorem run_succ_of_next (M : Host.Core) {k : Nat} : ∀ {s t : M.State}, M.run k s = .next t → M.run (k + 1) s = M.step t := by
  induction k with
  | zero =>
    intro s t h
    cases h
    simp only [Host.Core.run]
    cases M.step s <;> rfl
  | succ k ih =>
    intro s t h
    rw [Host.Core.run] at h ⊢
    cases hs : M.step s with
    | next u =>
      rw [hs] at h
      exact ih h
    | fault | refused =>
      rw [hs] at h
      cases h

theorem unchangedBut_refl (W : List Part) (s : State) : unchangedBut W s s := by
  simp [unchangedBut]

theorem unchangedBut_trans {W : List Part} {s t u : State} (h : unchangedBut W s t) (h' : unchangedBut W t u) :
    unchangedBut W s u := by
  obtain ⟨hmem, hv, hi, hpc, hstack, hsp, hdt, hst, hdisp, hkey, hfault, hdraws⟩ := h
  obtain ⟨hmem', hv', hi', hpc', hstack', hsp', hdt', hst', hdisp', hkey', hfault', hdraws'⟩ := h'
  exact ⟨fun n a => (hmem' n a).trans (hmem n a), fun n r => (hv' n r).trans (hv n r), fun n => (hi' n).trans (hi n),
    fun n => (hpc' n).trans (hpc n), fun n => (hstack' n).trans (hstack n), fun n => (hsp' n).trans (hsp n),
    fun n => (hdt' n).trans (hdt n), fun n => (hst' n).trans (hst n), fun n => (hdisp' n).trans (hdisp n),
    fun n => (hkey' n).trans (hkey n), fun n => ⟨(hfault' n).1.trans (hfault n).1, (hfault' n).2.trans (hfault n).2⟩,
    fun n => (hdraws' n).trans (hdraws n)⟩

/-! ### The two phases of the run -/

/-- Above the font, empty memory holds the undefined opcode 0x0000 (92_eei_decisions.md D12). -/
theorem step_of_empty {t : State} (hframe : unchangedBut [.pc, .fault] State.reset t) (hlow : 80 ≤ t.pc.toNat)
    (hhigh : t.pc.toNat ≤ 0xFFE) : step t = .next (takeFault (.decodeError 0) (advance t)) := by
  obtain ⟨hmem, -⟩ := hframe
  have hzero : ∀ a, 80 ≤ a → t.mem.read a = 0 := fun a ha =>
    (hmem (by decide) a).trans (initialByte_above_font ha)
  have hop : opcodeAtPC t = 0 := by
    rw [opcodeAtPC, hzero _ hlow, hzero _ (by omega)]
    rfl
  rw [← hop]
  exact step_of_undefined hhigh (r := .undefinedGroup0) (by rw [hop]; rfl)

/-- Up to the end of memory: `k` steps, `k` DecodeErrors. -/
theorem run_empty_to_end {k : Nat} (hk : k ≤ 1792) : ∃ t : State, core.run k State.reset = .next t ∧
    t.pc.toNat = 0x200 + 2 * k ∧ t.faults = List.replicate k (.decodeError 0) ∧
    unchangedBut [.pc, .fault] State.reset t := by
  induction k with
  | zero => exact ⟨State.reset, rfl, rfl, rfl, unchangedBut_refl _ _⟩
  | succ k ih =>
    obtain ⟨t, hrun, hpc, hfaults, hframe⟩ := ih (by omega)
    have hhigh : t.pc.toNat ≤ 0xFFE := by omega
    refine ⟨_, (run_succ_of_next core hrun).trans (step_of_empty hframe (by omega) hhigh), ?_, ?_,
      unchangedBut_trans hframe (takeFault_advance_frame t _ (by decide) (by decide))⟩
    · rw [takeFault_pc, advance_pc_toNat hhigh, hpc]
      omega
    · rw [takeFault_faults, advance_faults, hfaults, List.replicate_succ]

/-- From there on: an AddressFault a step, and `PC` stays. -/
theorem run_empty_at_end (k : Nat) : ∃ t : State, core.run (1792 + k) State.reset = .next t ∧ t.pc.toNat = 0x1000 ∧
    t.faults = List.replicate k (.addressFault 0x1000) ++ List.replicate 1792 (.decodeError 0) ∧
    unchangedBut [.pc, .fault] State.reset t := by
  induction k with
  | zero => exact run_empty_to_end (Nat.le_refl 1792)
  | succ k ih =>
    obtain ⟨t, hrun, hpc, hfaults, hframe⟩ := ih
    have hend : t.pc = 0x1000 := BitVec.eq_of_toNat_eq hpc
    refine ⟨_, (run_succ_of_next core hrun).trans (step_of_fetch_fault (by omega)), hpc, ?_,
      unchangedBut_trans hframe (takeFault_frame t _ (by decide))⟩
    rw [takeFault_faults, hfaults, hend]
    rfl

end Sys2Proof.Machine

namespace Sys2Proof
open Machine

/-- Settles O15: each phase by induction on the number of steps. -/
theorem emptyMachineRun : Obligations.EmptyMachineRun := by
  unfold Obligations.EmptyMachineRun
  exact ⟨fun _ => run_empty_to_end, run_empty_at_end⟩

end Sys2Proof
end
